-- ==== Sys2Proof/Word.lean ====
section
/-! DEFINITION. The word types of the ISE core and the plain names used for them (spec/00_scope.md rules R4, R6). -/

namespace Sys2Proof

/-- One sample, message byte or text byte: 8 bits, unsigned (R4, R6). -/
abbrev Byte := BitVec 8

/-- A dimension, the W or H field of a register: 16 bits (R15, R16). -/
abbrev Dim := BitVec 16

/-- A whole CSR word, and a command word: 32 bits (R11, R50). -/
abbrev Word := BitVec 32

/-- A sequence of samples as a function of the byte index, the argument and the result of the stage functions of
spec/43_pipelines.md section 1. Only the indices below three times the pixel count are samples of an image.
No field of the state has this type. -/
abbrev Image := Nat → Byte

end Sys2Proof
end

