-- ==== Sys2Proof/Config.lean ====
section
/-! DEFINITION. What an implementation fixes (MAXPIX, MSGMAX) and the free values the spec leaves open
(spec/00_scope.md rule R5, spec/93_implementation_defined.md U1 to U5). Every constant here is opaque and has no body, so
no proof can see its value. -/

namespace Sys2Proof

/-- The two parameters the model takes as arguments (R5). -/
structure Params where
  /-- MAXPIX: the number of pixels IMG can hold. -/
  maxpix : Nat
  /-- MSGMAX: the number of bytes MSG can hold. -/
  msgmax : Nat
deriving DecidableEq, Repr

/-- The unbounded constant from which MAXPIX is drawn (log entry 1). -/
opaque Config.maxpixRaw : Nat

/-- The unbounded constant from which MSGMAX is drawn (log entry 1). -/
opaque Config.msgmaxRaw : Nat

/-- MAXPIX of this implementation: an open value that meets R5's bound, 1 to 4294836225 (log entry 1). -/
def Config.maxpix : Nat := 1 + Config.maxpixRaw % 4294836225

/-- MSGMAX of this implementation: an open value that meets R5's bound, 0 to 536870911 (log entry 1). -/
def Config.msgmax : Nat := Config.msgmaxRaw % 536870912

/-- FREE VALUE (U1, U5; log entry 5): the byte IMG holds at an index after the given reset, until the byte is written. -/
opaque Config.initImg (resets index : Nat) : Byte

/-- FREE VALUE (U1, U5; log entry 5): the byte MSG holds at an index after the given reset, until the byte is written. -/
opaque Config.initMsg (resets index : Nat) : Byte

/-- FREE VALUE (U1, U3, U5; log entries 5 and 6): the byte OUT holds at an index outside the recovered text, after the
given draw of OUT (a reset, or the completion of a command that ran extract). -/
opaque Config.freeOut (outDraws index : Nat) : Byte

/-- FREE VALUE (U4; log entry 7): what a host read of IMG, MSG or OUT returns while BUSY = 1. -/
opaque Config.busyRead (draws : Nat) : Byte

/-- FREE VALUE (U2; log entry 4): how many host accesses fall between the accept of a command and its completion.
It is a natural number, so the busy interval is finite (R113). -/
opaque Config.busyTime (draws : Nat) : Nat

end Sys2Proof
end

