-- ==== Sys2Proof/Syntax.lean ====
section
/-! DEFINITION. The commands (one constructor for each row of spec/opcode_table.json, spec/30_encoding.md rule R51), the
reasons a word is no command (R54), the spaces and the accesses of the host (spec/20_memory.md rules R30, R37). -/

namespace Sys2Proof

/-- The seven commands. The S bit (R50, R52) is the one operand a command word carries, and it is free for the two
pipelines only, so every term of this type is well-formed. -/
inductive Instr where
  /-- ENC (R62): add K to every sample. -/
  | enc
  /-- DEC (R63): subtract K from every sample. -/
  | dec
  /-- FLIP (R67): move every pixel to the point-reflected place. -/
  | flip
  /-- EMBED (R74): write the bitstream into the bit slots. -/
  | embed
  /-- EXTRACT (R77): read header and payload from the bit slots. -/
  | extract
  /-- WPIPE (R86): optional embed when S = 1, encrypt, flip. -/
  | wpipe (stego : Bool)
  /-- RPIPE (R87): flip, decrypt, optional extract when S = 1. -/
  | rpipe (stego : Bool)
deriving DecidableEq, Repr

/-- Why a 32-bit word is an illegal command word (R54, R55). All three complete with ERR = ILLEGAL_CMD. -/
inductive IllegalWord where
  /-- A bit of RSV = w[31:9] is set. -/
  | reservedBitSet
  /-- S = 1 with an operation that does not allow it (OPC 0x01 to 0x05). -/
  | stegoNotAllowed
  /-- OPC is 0x00 or in 0x08 to 0xFF. -/
  | unknownOpcode
deriving DecidableEq, Repr

/-- The three byte-indexed spaces (R30). The CSR space is indexed by register number and has accesses of its own. -/
inductive Space where
  | img
  | msg
  | out
deriving DecidableEq, Repr

/-- What the world outside the block does to it, one event at a time: the host's access primitives (R37), the poll
`wait` of the host script (R57), and the reset input (R104). -/
inductive HostEvent where
  /-- HostRead(CSR, n). -/
  | readCsr (n : Nat)
  /-- HostWrite(CSR, n, w); with n = 0 a write to CMD. -/
  | writeCsr (n : Nat) (w : Word)
  /-- HostRead(S, i). -/
  | readByte (space : Space) (i : Nat)
  /-- HostWrite(S, i, v). -/
  | writeByte (space : Space) (i : Nat) (v : Byte)
  /-- HostRead(CSR, 1), repeated until BUSY = 0 (R57). -/
  | wait
  /-- Assertion of the reset input (R104). -/
  | reset
deriving DecidableEq, Repr

/-- What a host access returns to the host (R37): nothing, a CSR word, or a byte. -/
inductive Reply where
  | nothing
  | word (w : Word)
  | byte (v : Byte)
deriving DecidableEq, Repr

end Sys2Proof
end

