-- ==== Sys2Proof/WellFormed.lean ====
section
/-! DEFINITION. Well-formedness: which words are legal command words (spec/30_encoding.md rule R54) and which parameter
values are legal (spec/00_scope.md rule R5). A term of Instr has no ill-formed operand (the S bit is its only one), and the
host's accesses have none either (spec/20_memory.md rule R37). -/

namespace Sys2Proof

/-- R54's definition of a legal command word, written over the number the word encodes: bits 31:9 are 0, and either
bits 7:0 are 1 to 5 and bit 8 is 0, or bits 7:0 are 6 or 7. -/
def legalWord (w : Word) : Bool :=
  decide (w.toNat / 512 = 0) &&
    ((decide (1 ≤ w.toNat % 256 ∧ w.toNat % 256 ≤ 5) && decide (w.toNat / 256 % 2 = 0)) ||
      decide (w.toNat % 256 = 6 ∨ w.toNat % 256 = 7))

/-- R5's constraints on MAXPIX and MSGMAX. -/
def Params.legal (p : Params) : Bool :=
  decide (1 ≤ p.maxpix) && decide (p.maxpix ≤ 4294836225) && decide (p.msgmax ≤ 536870911)

/-- OUTSZ, the number of bytes of OUT (R5): the largest byte count an extract can produce. -/
def Params.outsz (p : Params) : Nat :=
  if 32 ≤ p.maxpix then (p.maxpix - 32) / 8 else 0

end Sys2Proof
end

