-- ==== Sys2Proof/Decode.lean ====
section
/-! DEFINITION. The decoder of command words, total on all 32-bit words and rejecting by name, and the encoder
(spec/30_encoding.md rules R50, R51, R55). A command word is written whole to the CSR space (R36, R37), so there is no
byte order to undo. -/

namespace Sys2Proof

/-- Field OPC, bits 7:0 (R50). -/
def opcField (w : Word) : BitVec 8 := w.extractLsb' 0 8

/-- Field S, bit 8 (R50). -/
def stegoField (w : Word) : Bool := w.getLsbD 8

/-- Field RSV, bits 31:9 (R50). -/
def reservedField (w : Word) : BitVec 23 := w.extractLsb' 9 23

/-- A command that does not allow S = 1 (R52, R54). -/
def withoutStego (i : Instr) (w : Word) : Except IllegalWord Instr :=
  if stegoField w then .error .stegoNotAllowed else .ok i

/-- The decoding procedure of R55. -/
def decode (w : Word) : Except IllegalWord Instr :=
  if reservedField w ≠ 0 then .error .reservedBitSet
  else if opcField w = 0x01 then withoutStego .enc w
  else if opcField w = 0x02 then withoutStego .dec w
  else if opcField w = 0x03 then withoutStego .flip w
  else if opcField w = 0x04 then withoutStego .embed w
  else if opcField w = 0x05 then withoutStego .extract w
  else if opcField w = 0x06 then .ok (.wpipe (stegoField w))
  else if opcField w = 0x07 then .ok (.rpipe (stegoField w))
  else .error .unknownOpcode

/-- The command word with the given fields and RSV = 0 (R50). -/
def commandWord (opc : BitVec 8) (stego : Bool) : Word :=
  (0 : BitVec 23) ++ BitVec.ofBool stego ++ opc

/-- The complete words of R51. -/
def encode : Instr → Word
  | .enc => commandWord 0x01 false
  | .dec => commandWord 0x02 false
  | .flip => commandWord 0x03 false
  | .embed => commandWord 0x04 false
  | .extract => commandWord 0x05 false
  | .wpipe stego => commandWord 0x06 stego
  | .rpipe stego => commandWord 0x07 stego

/-- The word whose low nbits are those of w, bit 0 the least significant, with zeros above (R50: one 32-bit length). -/
def tableWord (nbits w : Nat) : Word := BitVec.ofNat 32 (w % 2 ^ nbits)

/-- The command that the decoder reads from an opcode-table word. A command has one length, 32 bits (R50), so a longer
word is none. -/
def decodeTableWord (nbits w : Nat) : Option Instr :=
  if w % 2 ^ nbits < 2 ^ 32 then (decode (tableWord nbits w)).toOption else none

end Sys2Proof
end

