-- ==== Sys2Proof/Machine/State.lean ====
section
/-! DEFINITION. The state of the ISE core as plain data (spec/10_state.md rules R10 to R29), its reset value (R28), and
the outcomes' reason types. -/

namespace Sys2Proof.Machine

/-- A byte memory in canonical form: the bytes written since the last reset (for OUT: the bytes of the recovered text),
with strictly rising indices. An index that is not listed holds no written byte; what it reads as is a free value
(log entry 5). -/
abbrev Memory := List Host.Cell

/-- The canonical form: strictly rising indices. -/
abbrev Memory.wf (m : Memory) : Prop := m.Pairwise (fun c d => c.1 < d.1)

/-- The error codes of STATUS.ERR (R93). -/
inductive ErrCode where
  | ok
  | illegalCmd
  | badDim
  | badLen
  | capacityExceeded
deriving DecidableEq, Repr

/-- The extract outcomes of STATUS.XRES (R94). -/
inductive ExtractResult where
  | none
  | text
  | absentRange
  | absentUtf8
deriving DecidableEq, Repr

/-- Who moves next (R7, R8): the reset input, the engine with the command word it completes, the host with its next
access, or nobody. -/
inductive Turn where
  | reset (rest : List HostEvent)
  | complete (w : Word)
  | access (e : HostEvent) (rest : List HostEvent)
  | idle
deriving DecidableEq, Repr

/-- The reasons a step can stop with a fault: none. "every host action in every state has a stated outcome"
(spec/93_implementation_defined.md section 2), and an error is a value of STATUS.ERR (R92); log entry 13. -/
inductive Fault where
deriving DecidableEq, Repr

/-- The reasons a step can be refused. -/
inductive Refusal where
  /-- Raised only by an arm of exec that has no meaning yet (there is none): safe. -/
  | notModelled (mnemonic : String)
deriving DecidableEq, Repr

/-- The whole state. The first eleven fields are the spec's (R10, and the word R12 hands to the engine); the others are the model's own: the
parameters (R5), the host and reset events still to come, what the last access returned, and the counters that index
the free values. -/
structure State where
  /-- STATUS, register 1 (R13). -/
  status : Word
  /-- K, the field of KEY, register 2 (R14). -/
  key : Byte
  /-- W, the field of WIDTH, register 3 (R15). -/
  width : Dim
  /-- H, the field of HEIGHT, register 4 (R16). -/
  height : Dim
  /-- MSGLEN, register 5 (R17). -/
  msglen : Word
  /-- OUTLEN, register 6 (R18). -/
  outlen : Word
  /-- IMG: the bytes written since reset (R23). -/
  img : Memory
  /-- MSG: the bytes written since reset (R24). -/
  msg : Memory
  /-- OUT: the bytes of the recovered text (R25). -/
  out : Memory
  /-- The command word the engine holds from accept to completion (R8, R12). -/
  engine : Option Word
  /-- How many host accesses are still to fall into the busy interval (U2, log entry 4). -/
  busyLeft : Nat
  /-- MAXPIX and MSGMAX (R5, log entry 1). No step changes them. -/
  params : Params
  /-- The host accesses and reset events still to come, the next one first (R44, log entry 3). -/
  port : List HostEvent
  /-- What the last host access returned (R37, log entry 3). -/
  reply : Reply
  /-- The number of reset events so far: index of the free contents of IMG and MSG (log entry 12). -/
  resets : Nat
  /-- The number of draws of OUT so far: index of the free contents of OUT (log entry 12). -/
  outDraws : Nat
  /-- The number of other draws so far: index of busy times and busy reads (log entry 12). -/
  draws : Nat
deriving DecidableEq, Repr

/-- The machine right after reset (R28, R104): every register 0, nothing accepted, no byte of IMG, MSG or OUT written. The
parameters are the implementation's (log entry 1); no host access is waiting (log entry 3). -/
def State.reset : State where
  status := 0
  key := 0
  width := 0
  height := 0
  msglen := 0
  outlen := 0
  img := []
  msg := []
  out := []
  engine := none
  busyLeft := 0
  params := { maxpix := Config.maxpix, msgmax := Config.msgmax }
  port := []
  reply := .nothing
  resets := 0
  outDraws := 0
  draws := 0

end Sys2Proof.Machine
end

