-- ==== Sys2Proof/Machine/Flags.lean ====
section
/-! DEFINITION. The flags of the block: the fields of STATUS (spec/10_state.md rules R13, R22), the code numbers of
spec/60_exceptions.md rules R93 and R94, and the words written at accept and at completion. -/

namespace Sys2Proof.Machine

/-- The code of an error in STATUS.ERR (R93). -/
def errNumber : ErrCode → BitVec 4
  | .ok => 0
  | .illegalCmd => 1
  | .badDim => 2
  | .badLen => 3
  | .capacityExceeded => 4

/-- The code of an extract outcome in STATUS.XRES (R94). -/
def xresNumber : ExtractResult → BitVec 2
  | .none => 0
  | .text => 1
  | .absentRange => 2
  | .absentUtf8 => 3

/-- The STATUS word with the given fields; bits 31:10 and 3:2 are 0 (R13). -/
def statusWord (busy done : Bool) (e : ErrCode) (x : ExtractResult) : Word :=
  (0 : BitVec 22) ++ xresNumber x ++ errNumber e ++ (0 : BitVec 2) ++ BitVec.ofBool done ++ BitVec.ofBool busy

/-- STATUS from accept to completion: BUSY = 1, DONE = 0, ERR = 0, XRES = 0 (R12). -/
def statusBusy : Word := statusWord true false .ok .none

/-- STATUS after completion: BUSY = 0, DONE = 1, ERR = e, XRES = x (R92). -/
def statusDone (e : ErrCode) (x : ExtractResult) : Word := statusWord false true e x

/-- Field BUSY, bit 0 (R13). -/
def busyBit (st : Word) : Bool := st.getLsbD 0

/-- Field DONE, bit 1 (R13). -/
def doneBit (st : Word) : Bool := st.getLsbD 1

/-- Field ERR, bits 7:4 (R13). -/
def errField (st : Word) : BitVec 4 := st.extractLsb' 4 4

/-- Field XRES, bits 9:8 (R13). -/
def xresField (st : Word) : BitVec 2 := st.extractLsb' 8 2

/-- STATUS.BUSY of a state (R13, R22). -/
def State.busy (s : State) : Bool := busyBit s.status

end Sys2Proof.Machine
end

