-- ==== Sys2Proof/Machine/Ops.lean ====
section
/-! DEFINITION. The named operations over memory and registers: reading and writing bytes (spec/20_memory.md rules R30 to
R38), replacing the image or the recovered text, the accept and completion events (spec/00_scope.md rule R8, R12),
raising an error (spec/60_exceptions.md rules R92, R96), reset (R104), and whose turn it is (R7). -/

namespace Sys2Proof.Machine

/-! ### Byte memories -/

/-- The byte written at an index, if one was written. -/
def Memory.get? : Memory → Nat → Option Byte
  | [], _ => none
  | c :: m, a => if c.1 = a then some c.2 else Memory.get? m a

/-- Write one byte, keeping the indices strictly rising. -/
def Memory.write : Memory → Nat → Byte → Memory
  | [], a, v => [(a, v)]
  | c :: m, a, v =>
    if a < c.1 then (a, v) :: c :: m
    else if a = c.1 then (a, v) :: m
    else c :: Memory.write m a v

/-- Give every index below n the content f says (none: no written byte) and keep all indices from n on: the form in which a
command writes its whole result at once (R8, R46). -/
def Memory.fill (m : Memory) (n : Nat) (f : Nat → Option Byte) : Memory :=
  ((List.range n).filterMap fun a => (f a).map fun v => (a, v)) ++ m.filter fun c => decide (n ≤ c.1)

/-- The memory that holds exactly the given bytes, from index 0 on. -/
def Memory.ofBytes (bytes : List Byte) : Memory := Memory.fill [] bytes.length fun j => bytes[j]?

/-- IMG[a]: the written byte, or the free contents since reset (R23, R28, log entry 5). -/
def State.imgByte (s : State) (a : Nat) : Byte := (s.img.get? a).getD (Config.initImg s.resets a)

/-- MSG[j]: the written byte, or the free contents since reset (R24, R28, log entry 5). -/
def State.msgByte (s : State) (j : Nat) : Byte := (s.msg.get? j).getD (Config.initMsg s.resets j)

/-- OUT[j]: the byte of the recovered text, or a free value (R25, R28, R81, log entries 5 and 6). -/
def State.outByte (s : State) (j : Nat) : Byte := (s.out.get? j).getD (Config.freeOut s.outDraws j)

/-- The number of bytes of each space (R23, R24, R25, R30). -/
def State.spaceSize (s : State) : Space → Nat
  | .img => 3 * s.params.maxpix
  | .msg => s.params.msgmax
  | .out => s.params.outsz

/-- The byte that stands at an index of a space. -/
def State.byteAt (s : State) : Space → Nat → Byte
  | .img, i => s.imgByte i
  | .msg, i => s.msgByte i
  | .out, i => s.outByte i

/-! ### What a command's effect writes -/

/-- IMG[0 .. n) takes the samples of an image; every other byte stays (R27). -/
def State.storeImage (s : State) (n : Nat) (image : Image) : State :=
  { s with img := s.img.fill n fun a => some (image a) }

/-- The channel-0 samples of the pixels 0 to k-1 take the values the image gives them; every other byte stays (R76). -/
def State.storeSlots (s : State) (k : Nat) (image : Image) : State :=
  { s with img := s.img.fill (3 * k) fun a => if a % 3 = 0 then some (image a) else s.img.get? a }

/-- OUT[0 .. n) and OUTLEN take the recovered text of n bytes; the bytes of OUT beyond it are drawn afresh (R81, log entry 6). -/
def State.storeText (s : State) (bytes : List Byte) : State :=
  { s with
    out := Memory.ofBytes bytes
    outlen := BitVec.ofNat 32 bytes.length
    outDraws := s.outDraws + 1 }

/-! ### Accept, completion, errors, reset -/

/-- The accept event (R12): STATUS goes to busy and the engine takes the word. The length of the busy interval is a free
value (U2, log entry 4). -/
def State.accept (s : State) (w : Word) : State :=
  { s with
    status := statusBusy
    engine := some w
    busyLeft := Config.busyTime s.draws
    draws := s.draws + 1 }

/-- The completion step (R8, R92, R114): STATUS takes BUSY = 0, DONE = 1 and the outcome, and the engine lets go of the
command. -/
def State.complete (s : State) (e : ErrCode) (x : ExtractResult) : State :=
  { s with
    status := statusDone e x
    engine := none
    busyLeft := 0 }

/-- `raise E` (R92, R96): the completion step with ERR = E and XRES = NONE, and no other change. The block has no handler,
no vector and nothing to save, so this is all that taking an exception is here; the return (R97) is the next accept. -/
def State.raise (s : State) (e : ErrCode) : State := s.complete e .none

/-- The reset event (R104, R105): the state of R28, whatever was running. The memories are drawn afresh. The parameters, the
host events still to come and the model's own counters go on (log entry 9). -/
def State.takeReset (s : State) (rest : List HostEvent) : State :=
  { State.reset with
    params := s.params
    port := rest
    resets := s.resets + 1
    outDraws := s.outDraws + 1
    draws := s.draws }

/-! ### Whose turn it is -/

/-- Whose turn it is (R7, R8). Reset comes before everything else (R105). A command held by the engine completes when the host accesses
of its busy interval have been made, and at once when the host makes none (R113, log entry 4). -/
def State.turn (s : State) : Turn :=
  match s.port with
  | [] =>
    match s.engine with
    | some w => .complete w
    | none => .idle
  | .reset :: rest => .reset rest
  | e :: rest =>
    match s.engine with
    | some w => if s.busyLeft = 0 then .complete w else .access e rest
    | none => .access e rest

/-- The next host access leaves the port, and counts down the busy interval if a command is running (log entry 4). -/
def State.deliver (s : State) (rest : List HostEvent) : State :=
  { s with port := rest, busyLeft := s.busyLeft - 1 }

/-- The state in which the engine has just been handed a word and completes it in the very next step: no reset is asserted
first and no host access falls into the busy interval (log entry 2). -/
def State.holdCommand (s : State) (w : Word) : State :=
  { s with
    status := statusBusy
    engine := some w
    busyLeft := 0
    port := s.port.dropWhile fun e => decide (e = .reset) }

end Sys2Proof.Machine
end

