-- ==== Sys2Proof/Machine/Operands.lean ====
section
/-! DEFINITION. The operands of the commands. They are implicit (spec/30_encoding.md rule R53): W, H, N, K, MLEN and L, the
image and the message (spec/10_state.md rule R20), the layout of the image (spec/20_memory.md rules R31 to R33), and the
checks made on them at accept, in the order of spec/60_exceptions.md rule R95. -/

namespace Sys2Proof.Machine

/-- W (R15). -/
def State.w (s : State) : Nat := s.width.toNat

/-- H (R16). -/
def State.h (s : State) : Nat := s.height.toNat

/-- N = W × H, the number of pixels and the capacity, without truncation (R6, R16, R71). -/
def State.pixels (s : State) : Nat := s.w * s.h

/-- The number of samples of the image, 3N (R6). -/
def State.samples (s : State) : Nat := 3 * s.pixels

/-- MLEN, the number of message bytes (R17). -/
def State.mlen (s : State) : Nat := s.msglen.toNat

/-- L = 8 × MLEN, the payload length in bits, without truncation (R17). -/
def State.payloadBits (s : State) : Nat := 8 * s.mlen

/-- 32 + L, the length of the bitstream (R72). -/
def State.streamBits (s : State) : Nat := 32 + s.payloadBits

/-- The byte index of channel c of the pixel at column x and row y, for width w (R31). -/
def addr (w x y c : Nat) : Nat := 3 * (y * w + x) + c

/-- The flat index of the pixel that a byte index belongs to (R32). -/
def pixelOf (a : Nat) : Nat := a / 3

/-- The channel that a byte index belongs to (R32). -/
def channelOf (a : Nat) : Nat := a % 3

/-- BAD_DIM's cause (R93): W = 0, or H = 0, or W × H > MAXPIX. -/
def State.badDim (s : State) : Bool :=
  decide (s.w = 0) || decide (s.h = 0) || decide (s.params.maxpix < s.pixels)

/-- BAD_LEN's cause (R93): MSGLEN > MSGMAX. -/
def State.badLen (s : State) : Bool := decide (s.params.msgmax < s.mlen)

/-- CAPACITY_EXCEEDED's cause (R75, R93): 32 + 8 × MSGLEN > W × H. -/
def State.overCapacity (s : State) : Bool := decide (s.pixels < s.streamBits)

/-- The first error that applies to a legal command, in R95's order; the last two only for a command that runs embed. -/
def State.operandError (s : State) (runsEmbed : Bool) : Option ErrCode :=
  if s.badDim then some .badDim
  else if runsEmbed && s.badLen then some .badLen
  else if runsEmbed && s.overCapacity then some .capacityExceeded
  else none

end Sys2Proof.Machine
end

