-- ==== Sys2Proof/Machine/Cipher.lean ====
section
/-! DEFINITION. The cipher unit MA8 and the commands ENC and DEC (spec/40_cipher.md rules R60 to R65). -/

namespace Sys2Proof.Machine

/-- The unit `modular_adder_8bit` (R60): the sum or the difference of two 8-bit values, modulo 256. -/
def madd8 (v k : Byte) (sub : Bool) : Byte := if sub then v - k else v + k

/-- enc_img(I, K) (spec/43_pipelines.md section 1, R62). -/
def encImg (k : Byte) (image : Image) : Image := fun a => madd8 (image a) k false

/-- dec_img(I, K) (spec/43_pipelines.md section 1, R63). -/
def decImg (k : Byte) (image : Image) : Image := fun a => madd8 (image a) k true

/-- ENC (R62). -/
def execEnc (s : State) : Host.Outcome State Fault Refusal :=
  match s.operandError false with
  | some e => .next (s.raise e)
  | none => .next ((s.storeImage s.samples (encImg s.key s.imgByte)).complete .ok .none)

/-- DEC (R63). -/
def execDec (s : State) : Host.Outcome State Fault Refusal :=
  match s.operandError false with
  | some e => .next (s.raise e)
  | none => .next ((s.storeImage s.samples (decImg s.key s.imgByte)).complete .ok .none)

end Sys2Proof.Machine
end

