-- ==== Sys2Proof/Machine/Codec.lean ====
section
/-! DEFINITION. The bitstream codec BSC and the commands EMBED and EXTRACT (spec/42_codec.md rules R70 to R84). -/

namespace Sys2Proof.Machine

/-! ### Bits, slots and the bitstream -/

/-- Bit slot i: bit 0 of the channel-0 sample of the pixel with flat index i (R33, R70). -/
def slotBit (image : Image) (i : Nat) : Bool := (image (3 * i)).getLsbD 0

/-- Bit b_i of the bitstream with payload length l and message bytes m (R35, R72). -/
def streamBit (l : Nat) (m : Nat → Byte) (i : Nat) : Bool :=
  if i < 32 then l.testBit (31 - i)
  else (m ((i - 32) / 8)).getLsbD (7 - (i - 32) % 8)

/-- The parity adjustment (R73, with 90_conflicts.md C2): no change if bit 0 is right, else -1 for an odd sample and +1
for an even one. -/
def setLsb (v : Byte) (b : Bool) : Byte :=
  if v.getLsbD 0 = b then v
  else if v.getLsbD 0 then v - 1
  else v + 1

/-! ### EMBED -/

/-- embed_img(I, M) for payload length l (spec/43_pipelines.md section 1, R74, R76): the slots below 32 + l take the
bitstream, every other sample stays. -/
def embedImg (l : Nat) (m : Nat → Byte) (image : Image) : Image := fun a =>
  if channelOf a = 0 ∧ pixelOf a < 32 + l then setLsb (image a) (streamBit l m (pixelOf a)) else image a

/-- EMBED (R74). -/
def execEmbed (s : State) : Host.Outcome State Fault Refusal :=
  match s.operandError true with
  | some e => .next (s.raise e)
  | none =>
    .next ((s.storeSlots s.streamBits (embedImg s.payloadBits s.msgByte s.imgByte)).complete .ok .none)

/-! ### EXTRACT -/

/-- The sum over i in [0, n) of bit i × 2^(n-1-i): n bits read with the first as the most significant (R35, R77). -/
def bitsValue (n : Nat) (bit : Nat → Bool) : Nat :=
  ((List.range n).map fun i => (bit i).toNat * 2 ^ (n - 1 - i)).sum

/-- The header L read from the slots 0 to 31 (R77 step 1), unsigned (90_conflicts.md C6). -/
def headerOf (image : Image) : Nat := bitsValue 32 (slotBit image)

/-- Byte B_j read from the slots 32 + 8j to 32 + 8j + 7 (R77 step 3, R79). -/
def payloadByte (image : Image) (j : Nat) : Byte :=
  BitVec.ofNat 8 (bitsValue 8 fun t => slotBit image (32 + 8 * j + t))

/-- The bytes B_0 to B_(nb-1) (R77 step 3, R79). -/
def payloadBytes (image : Image) (nb : Nat) : List Byte := (List.range nb).map (payloadByte image)

/-- Is a byte in an inclusive range? -/
def inRange (r : Nat × Nat) (b : Byte) : Bool := decide (r.1 ≤ b.toNat) && decide (b.toNat ≤ r.2)

/-- The nine forms of a well-formed UTF-8 group (R80): the range of the first byte, then those of the bytes after it.
PRESUMED: the spec itself marks the table as general knowledge (G1, log entry 8). -/
def utf8Forms : List ((Nat × Nat) × List (Nat × Nat)) :=
  [((0x00, 0x7F), []),
   ((0xC2, 0xDF), [(0x80, 0xBF)]),
   ((0xE0, 0xE0), [(0xA0, 0xBF), (0x80, 0xBF)]),
   ((0xE1, 0xEC), [(0x80, 0xBF), (0x80, 0xBF)]),
   ((0xED, 0xED), [(0x80, 0x9F), (0x80, 0xBF)]),
   ((0xEE, 0xEF), [(0x80, 0xBF), (0x80, 0xBF)]),
   ((0xF0, 0xF0), [(0x90, 0xBF), (0x80, 0xBF), (0x80, 0xBF)]),
   ((0xF1, 0xF3), [(0x80, 0xBF), (0x80, 0xBF), (0x80, 0xBF)]),
   ((0xF4, 0xF4), [(0x80, 0x8F), (0x80, 0xBF), (0x80, 0xBF)])]

/-- Read bytes with the ranges of the current group's bytes still to come; with none to come a new group starts. -/
def utf8Run : List (Nat × Nat) → List Byte → Bool
  | [], [] => true
  | _ :: _, [] => false
  | [], b :: bs =>
    match utf8Forms.find? fun f => inRange f.1 b with
    | some f => utf8Run f.2 bs
    | none => false
  | r :: rs, b :: bs => inRange r b && utf8Run rs bs

/-- utf8_valid (R80). -/
def utf8Valid (bytes : List Byte) : Bool := utf8Run [] bytes

/-- extract_img(I) for n pixels (spec/43_pipelines.md section 1, R77 to R79, R82): the outcome and the text. -/
def extractImg (n : Nat) (image : Image) : ExtractResult × List Byte :=
  if n < 32 then (.absentRange, [])
  else if headerOf image = 0 ∨ n - 32 < headerOf image then (.absentRange, [])
  else if utf8Valid (payloadBytes image (headerOf image / 8)) then
    (.text, payloadBytes image (headerOf image / 8))
  else (.absentUtf8, [])

/-- The end of a command that ran extract on an image of n pixels (R81): OUT and OUTLEN take the text, XRES the outcome. -/
def State.finishExtract (s : State) (n : Nat) (image : Image) : State :=
  (s.storeText (extractImg n image).2).complete .ok (extractImg n image).1

/-- EXTRACT (R77). -/
def execExtract (s : State) : Host.Outcome State Fault Refusal :=
  match s.operandError false with
  | some e => .next (s.raise e)
  | none => .next (s.finishExtract s.pixels s.imgByte)

end Sys2Proof.Machine
end

