-- ==== Sys2Proof/Machine/Permutation.lean ====
section
/-! DEFINITION. The permutation unit SPE and the command FLIP (spec/41_permutation.md rules R66 to R69). -/

namespace Sys2Proof.Machine

/-- The unit `spatial_permutation_engine` in flat indices (R66): pixel p of n goes to n - 1 - p. -/
def flipPixel (n p : Nat) : Nat := n - 1 - p

/-- flip_img(I) for n pixels (spec/43_pipelines.md section 1, R67): the sample at a byte index is the one of the same channel
of the pixel that goes there, which is the reflected pixel, the map being its own inverse. -/
def flipImg (n : Nat) (image : Image) : Image :=
  fun a => image (3 * flipPixel n (pixelOf a) + channelOf a)

/-- FLIP (R67). -/
def execFlip (s : State) : Host.Outcome State Fault Refusal :=
  match s.operandError false with
  | some e => .next (s.raise e)
  | none => .next ((s.storeImage s.samples (flipImg s.pixels s.imgByte)).complete .ok .none)

end Sys2Proof.Machine
end

