-- ==== Sys2Proof/Machine/Pipelines.lean ====
section
/-! DEFINITION. The sequencer SEQ and the commands WPIPE and RPIPE (spec/43_pipelines.md rules R85 to R91). -/

namespace Sys2Proof.Machine

/-- I3 of R86: the image after optional embed, encrypt and flip, in that order (R85). -/
def writeStages (s : State) (stego : Bool) : Image :=
  flipImg s.pixels (encImg s.key (if stego then embedImg s.payloadBits s.msgByte s.imgByte else s.imgByte))

/-- J2 of R87: the image after flip and decrypt, in that order (R85). -/
def readStages (s : State) : Image := decImg s.key (flipImg s.pixels s.imgByte)

/-- WPIPE (R86). All checks come before any stage (R88). -/
def execWpipe (stego : Bool) (s : State) : Host.Outcome State Fault Refusal :=
  match s.operandError stego with
  | some e => .next (s.raise e)
  | none => .next ((s.storeImage s.samples (writeStages s stego)).complete .ok .none)

/-- RPIPE (R87). The extract stage reads the image after flip and decrypt. -/
def execRpipe (stego : Bool) (s : State) : Host.Outcome State Fault Refusal :=
  match s.operandError false with
  | some e => .next (s.raise e)
  | none =>
    if stego then .next ((s.storeImage s.samples (readStages s)).finishExtract s.pixels (readStages s))
    else .next ((s.storeImage s.samples (readStages s)).complete .ok .none)

end Sys2Proof.Machine
end

