-- ==== Sys2Proof/Machine/Dispatch.lean ====
section
/-! DEFINITION. The dispatch from a command to its meaning: the completion step of the command (spec/00_scope.md rule R8). -/

namespace Sys2Proof.Machine

def exec (i : Instr) (s : State) : Host.Outcome State Fault Refusal :=
  match i with
  | .enc => Sys2Proof.Machine.execEnc s
  | .dec => Sys2Proof.Machine.execDec s
  | .flip => Sys2Proof.Machine.execFlip s
  | .embed => Sys2Proof.Machine.execEmbed s
  | .extract => Sys2Proof.Machine.execExtract s
  | .wpipe stego => Sys2Proof.Machine.execWpipe stego s
  | .rpipe stego => Sys2Proof.Machine.execRpipe stego s

end Sys2Proof.Machine
end

