-- ==== Sys2Proof/Machine/HostPort.lean ====
section
/-! DEFINITION. The host port: what each host access does and returns (spec/10_state.md rules R12 to R19,
spec/20_memory.md rules R37 to R40), and the poll of the host script (spec/30_encoding.md rule R57). -/

namespace Sys2Proof.Machine

/-- HostRead(CSR, n) (R12 to R19): CMD and the numbers from 7 on read 0; fields read with zeros above them. A read while
BUSY = 1 returns the register's true value too (R40). -/
def State.csrRead (s : State) : Nat → Word
  | 1 => s.status
  | 2 => s.key.setWidth 32
  | 3 => s.width.setWidth 32
  | 4 => s.height.setWidth 32
  | 5 => s.msglen
  | 6 => s.outlen
  | _ => 0

/-- HostWrite(CSR, n, w) (R12 to R19): dropped while BUSY = 1 (R40); STATUS, OUTLEN and the numbers from 7 on ignore it; a
field takes its bits of w; a write to CMD is the accept event. -/
def State.csrWrite (s : State) (n : Nat) (w : Word) : State :=
  if s.busy then s
  else match n with
    | 0 => s.accept w
    | 2 => { s with key := w.setWidth 8 }
    | 3 => { s with width := w.setWidth 16 }
    | 4 => { s with height := w.setWidth 16 }
    | 5 => { s with msglen := w }
    | _ => s

/-- The byte HostRead(S, i) returns: while BUSY = 0 the byte that stands there, and 0 out of range (R38, R39); while
BUSY = 1 a free value (R40, U4, log entry 7). -/
def State.byteRead (s : State) (space : Space) (i : Nat) : Byte :=
  if s.busy then Config.busyRead s.draws
  else if i < s.spaceSize space then s.byteAt space i
  else 0

/-- The draw of a byte read: while BUSY = 1 it uses one free value up (log entry 7); the block's own state does not change (R39, R40). -/
def State.countBusyRead (s : State) : State :=
  if s.busy then { s with draws := s.draws + 1 } else s

/-- HostWrite(S, i, v): dropped while BUSY = 1 (R40), ignored out of range and for every byte of OUT (R25, R38, R39). -/
def State.byteWrite (s : State) (space : Space) (i : Nat) (v : Byte) : State :=
  if s.busy then s
  else if i < s.spaceSize space then
    match space with
    | .img => { s with img := s.img.write i v }
    | .msg => { s with msg := s.msg.write i v }
    | .out => s
  else s

/-- What the host gets back from an access. -/
def State.answer (s : State) : HostEvent → Reply
  | .readCsr n => .word (s.csrRead n)
  | .readByte space i => .byte (s.byteRead space i)
  | .wait => .word (s.csrRead 1)
  | .writeCsr _ _ => .nothing
  | .writeByte _ _ _ => .nothing
  | .reset => .nothing

/-- What an access does to the block. The reset event has an operation of its own (State.takeReset). -/
def State.effect (s : State) : HostEvent → State
  | .writeCsr n w => s.csrWrite n w
  | .writeByte space i v => s.byteWrite space i v
  | .readByte _ _ => s.countBusyRead
  | .readCsr _ => s
  | .wait => s
  | .reset => s

/-- What is still to come after an access: a poll that reads BUSY = 1 is made again (R57). -/
def State.afterEvent (s : State) (e : HostEvent) (rest : List HostEvent) : List HostEvent :=
  if s.busy && decide (e = .wait) then e :: rest else rest

/-- One host access, atomic (R41): it leaves the port, has its effect and returns its answer. -/
def State.access (s : State) (e : HostEvent) (rest : List HostEvent) : State :=
  { (s.deliver (s.afterEvent e rest)).effect e with reply := s.answer e }

end Sys2Proof.Machine
end

