-- ==== Sys2Proof/Machine/Step.lean ====
section
/-! DEFINITION. One step of the machine: a reset event, the completion of the command the engine holds, one host access, or
nothing (spec/00_scope.md rules R7, R8, spec/20_memory.md rule R44). -/

namespace Sys2Proof.Machine

/-- One step. An illegal word completes with ILLEGAL_CMD and no other change (spec/30_encoding.md rule R54). -/
def step (s : State) : Host.Outcome State Fault Refusal :=
  match s.turn with
  | .reset rest => .next (s.takeReset rest)
  | .complete w =>
    match decode w with
    | .ok i => exec i s
    | .error _ => .next (s.raise .illegalCmd)
  | .access e rest => .next (s.access e rest)
  | .idle => .next s

/-- The state in which the engine holds the given opcode-table word and completes it in the very next step (log entry 2). -/
def State.withFetchWord (s : State) (nbits w : Nat) : State := s.holdCommand (tableWord nbits w)

end Sys2Proof.Machine
end

