-- ==== Sys2Proof/Machine/Script.lean ====
section
/-! DEFINITION. The host-script notation and the pseudo-commands (spec/30_encoding.md rules R57, R58) as lists of host
events. They are notation for what a host does (92_eei_decisions.md D27), not part of the block. -/

namespace Sys2Proof.Machine

/-- `ld S, i, b0 b1 …`: one HostWrite per byte, ascending (R57). -/
def scriptLoad (space : Space) (start : Nat) (bytes : List Byte) : List HostEvent :=
  bytes.zipIdx.map fun c => .writeByte space (start + c.2) c.1

/-- `dump S, i, n`: one HostRead per byte, ascending (R57). -/
def scriptDump (space : Space) (start n : Nat) : List HostEvent :=
  (List.range n).map fun j => .readByte space (start + j)

/-- A command line of the script: write the command's word to CMD (R57). -/
def scriptCommand (i : Instr) : HostEvent := .writeCsr 0 (encode i)

/-- `wr KEY, key` with a signed key: its low 32 bits in two's complement (R57, R61). -/
def scriptKey (key : Int) : HostEvent := .writeCsr 2 (BitVec.ofInt 32 key)

/-- `LOAD_IMAGE w, h, bytes` (R58). -/
def loadImage (w h : Word) (bytes : List Byte) : List HostEvent :=
  .writeCsr 3 w :: .writeCsr 4 h :: scriptLoad .img 0 bytes

/-- `ENCRYPT_IMAGE key` (R58). -/
def encryptImage (key : Int) : List HostEvent := [scriptKey key, scriptCommand (.wpipe false), .wait]

/-- `ENCRYPT_IMAGE_HIDE key, bytes` (R58). -/
def encryptImageHide (key : Int) (bytes : List Byte) : List HostEvent :=
  scriptLoad .msg 0 bytes ++
    [.writeCsr 5 (BitVec.ofNat 32 bytes.length), scriptKey key, scriptCommand (.wpipe true), .wait]

/-- `DECRYPT_IMAGE key` (R58). -/
def decryptImage (key : Int) : List HostEvent := [scriptKey key, scriptCommand (.rpipe false), .wait]

/-- `DECRYPT_IMAGE_SHOW key` (R58), with the OUTLEN that its `rd OUTLEN` returned to the host. -/
def decryptImageShow (key : Int) (outlen : Nat) : List HostEvent :=
  [scriptKey key, scriptCommand (.rpipe true), .wait, .readCsr 6] ++ scriptDump .out 0 outlen

end Sys2Proof.Machine
end

