-- ==== Sys2Proof/Safety.lean ====
section
/-! DEFINITION. The terms in which claims are stated: when a command is well set up, who moves next, what stays unchanged,
the state invariant (spec/10_state.md rule R29), and the host's duties that can be read off one state and one access
(spec/70_reset_and_hazards.md rules R107, R109, R114). -/

namespace Sys2Proof.Machine

/-! ### When a command executes normally -/

/-- No BAD_DIM (R93): 1 <= W, 1 <= H, W × H <= MAXPIX. -/
abbrev State.validDims (s : State) : Prop := 1 ≤ s.w ∧ 1 ≤ s.h ∧ s.pixels ≤ s.params.maxpix

/-- Neither BAD_LEN nor CAPACITY_EXCEEDED (R93): MLEN <= MSGMAX and 32 + 8 × MLEN <= W × H. -/
abbrev State.embedFits (s : State) : Prop := s.mlen ≤ s.params.msgmax ∧ s.streamBits ≤ s.pixels

/-- The commands that run embed (R93). -/
def runsEmbed : Instr → Bool
  | .embed => true
  | .wpipe stego => stego
  | .enc => false
  | .dec => false
  | .flip => false
  | .extract => false
  | .rpipe _ => false

/-- The commands that run extract (R18). -/
def runsExtract : Instr → Bool
  | .extract => true
  | .rpipe stego => stego
  | .enc => false
  | .dec => false
  | .flip => false
  | .embed => false
  | .wpipe _ => false

/-! ### Who moves next -/

/-- The next step is the completion of the command word w: no reset comes first, and no host access is left in the busy
interval. -/
abbrev State.completes (s : State) (w : Word) : Prop :=
  s.engine = some w ∧ (s.busyLeft = 0 ∨ s.port = []) ∧ s.port.head? ≠ some .reset

/-- The next step is the host access e: the engine is idle, or the access falls into the busy interval. -/
abbrev State.hostMoves (s : State) (e : HostEvent) (rest : List HostEvent) : Prop :=
  s.port = e :: rest ∧ e ≠ .reset ∧ (s.engine = none ∨ s.busyLeft ≠ 0)

/-! ### What stays unchanged -/

/-- KEY, WIDTH, HEIGHT, MSGLEN and every byte of MSG are as before. -/
def SameInputs (s t : State) : Prop :=
  t.key = s.key ∧ t.width = s.width ∧ t.height = s.height ∧ t.msglen = s.msglen ∧ ∀ j, t.msgByte j = s.msgByte j

/-- Every byte of IMG from index n on is as before. -/
def SameImageFrom (n : Nat) (s t : State) : Prop := ∀ a, n ≤ a → t.imgByte a = s.imgByte a

/-- Every byte of IMG is as before. -/
def SameImage (s t : State) : Prop := ∀ a, t.imgByte a = s.imgByte a

/-- OUTLEN and every byte of OUT are as before. -/
def SameText (s t : State) : Prop := t.outlen = s.outlen ∧ ∀ j, t.outByte j = s.outByte j

/-- What a command has no part in is as before: the parameters, the host's accesses to come, its last reply, and the
counters of the reset events and of the busy draws. -/
def SameSurroundings (s t : State) : Prop :=
  t.params = s.params ∧ t.port = s.port ∧ t.reply = s.reply ∧ t.resets = s.resets ∧ t.draws = s.draws

/-- All of the block's own state is as before, and the parameters. -/
def SameBlock (s t : State) : Prop :=
  t.status = s.status ∧ t.engine = s.engine ∧ SameInputs s t ∧ SameImage s t ∧ SameText s t ∧ t.params = s.params

/-- The completion step wrote STATUS and nothing else. -/
def OnlyStatus (st : Word) (s t : State) : Prop :=
  t.status = st ∧ t.engine = none ∧ SameInputs s t ∧ SameImage s t ∧ SameText s t ∧ SameSurroundings s t

/-- The operands of a command agree (R20, R27): KEY, WIDTH, HEIGHT, MSGLEN, the parameters, IMG and MSG. -/
def SameOperands (s t : State) : Prop :=
  SameInputs s t ∧ SameImage s t ∧ t.params = s.params

/-! ### What an extract reports -/

/-- The state t reports the extract of an image of n pixels (R77 to R79, R82): with L the number whose bit 31 - i is slot i
for i < 32, and B_j the byte whose bit 7 - u is slot 32 + 8j + u, the outcome is ABSENT_RANGE if n < 32 or L = 0 or
L > n - 32, else TEXT with the nb = L div 8 bytes if they are valid UTF-8, else ABSENT_UTF8. -/
def ReportsExtract (n : Nat) (image : Image) (t : State) : Prop :=
  ∃ (l : Nat) (b : Nat → Byte),
    l < 2 ^ 32 ∧ (∀ i, i < 32 → l.testBit (31 - i) = (image (3 * i)).getLsbD 0) ∧
    (∀ j u, j < l / 8 → u < 8 → (b j).getLsbD (7 - u) = (image (3 * (32 + 8 * j + u))).getLsbD 0) ∧
    (if n < 32 ∨ l = 0 ∨ n - 32 < l then t.status = 0x202 ∧ t.outlen = 0
     else if utf8Valid ((List.range (l / 8)).map b) then
       t.status = 0x102 ∧ t.outlen.toNat = l / 8 ∧ ∀ j, j < l / 8 → t.outByte j = b j
     else t.status = 0x302 ∧ t.outlen = 0)

/-! ### The state invariant -/

/-- The ten values of STATUS (R13, R29). -/
def legalStatus : List Word :=
  [0x000, 0x001, 0x002, 0x102, 0x202, 0x302, 0x012, 0x022, 0x032, 0x042]

/-- The bytes of the recovered text, OUT[0 .. OUTLEN) (R25). -/
def State.textBytes (s : State) : List Byte := (List.range s.outlen.toNat).map s.outByte

/-- What holds in every state a run reaches (R29, R5, R22, R23 to R25): the parameters meet their bounds, STATUS is one of
its ten values, BUSY = 1 exactly while the engine holds a command, OUTLEN is at most OUTSZ, the memories are in canonical
form and list no index outside their spaces, and OUT lists no index outside the text. -/
structure State.Inv (s : State) : Prop where
  params : s.params.legal = true
  status : s.status ∈ legalStatus
  busy : s.busy = s.engine.isSome
  outlen : s.outlen.toNat ≤ s.params.outsz
  imgWf : Memory.wf s.img
  msgWf : Memory.wf s.msg
  outWf : Memory.wf s.out
  imgRange : ∀ c ∈ s.img, c.1 < 3 * s.params.maxpix
  msgRange : ∀ c ∈ s.msg, c.1 < s.params.msgmax
  outRange : ∀ c ∈ s.out, c.1 < s.outlen.toNat

/-! ### The host's duties -/

/-- The busy hazard (R107, R102): while BUSY = 1 the host makes no write and reads no memory. -/
def HostEvent.respectsBusy (s : State) : HostEvent → Bool
  | .readCsr _ => true
  | .wait => true
  | .reset => true
  | .writeCsr _ _ => !s.busy
  | .readByte _ _ => !s.busy
  | .writeByte _ _ _ => !s.busy

/-- Every sample of the image has been written since reset (R109). -/
def State.imageWritten (s : State) : Prop := ∀ a, a < s.samples → (s.img.get? a).isSome = true

/-- Every byte of the message has been written since reset (R109). -/
def State.messageWritten (s : State) : Prop := ∀ j, j < s.mlen → (s.msg.get? j).isSome = true

/-- A host script has ended (R114): nothing is left to do, and BUSY = 0. -/
def State.final (s : State) : Bool := s.port.isEmpty && !s.busy

end Sys2Proof.Machine
end

