-- ==== Sys2Proof/Certificates/Slice0/Obligations.lean ====
section
/-! DEFINITION. The statements about the ISE core, from the numbered rules of the spec. Each is a proposition; none is
proved here. A docstring names the rules the statement rests on. -/

open Sys2Proof Sys2Proof.Machine

/-! ### Encoding -/

/-- R51: a sample of the words as the table of R51 writes them, and what they stand for. -/
def Obligations.CommandWordsDecodeAsListed : Prop :=
  decode 0x00000001 = .ok .enc ∧ decode 0x00000003 = .ok .flip ∧ decode 0x00000005 = .ok .extract ∧
    decode 0x00000006 = .ok (.wpipe false) ∧ decode 0x00000107 = .ok (.rpipe true)

/-- R51: the nine words of the table decode to their commands, and no other word decodes to any. -/
def Obligations.ExactlyTheNineWordsAreCommands : Prop :=
  ∀ (w : Word) (i : Instr), decode w = .ok i ↔
    (w, i) ∈ [((0x00000001 : Word), Instr.enc), (0x00000002, .dec), (0x00000003, .flip), (0x00000004, .embed),
      (0x00000005, .extract), (0x00000006, .wpipe false), (0x00000106, .wpipe true), (0x00000007, .rpipe false),
      (0x00000107, .rpipe true)]

/-- R55: decoding follows the procedure, field by field, on all words, and the encoder is its inverse on the legal words. -/
def Obligations.DecodingInvertsEncoding : Prop :=
  (∀ i : Instr, decode (encode i) = .ok i) ∧
    (∀ (w : Word) (i : Instr), decode w = .ok i → encode i = w) ∧
    ∀ w : Word, (decode w).toOption =
      if w.toNat / 512 ≠ 0 then none
      else if w.toNat % 256 = 1 then (if w.toNat / 256 % 2 = 0 then some .enc else none)
      else if w.toNat % 256 = 2 then (if w.toNat / 256 % 2 = 0 then some .dec else none)
      else if w.toNat % 256 = 3 then (if w.toNat / 256 % 2 = 0 then some .flip else none)
      else if w.toNat % 256 = 4 then (if w.toNat / 256 % 2 = 0 then some .embed else none)
      else if w.toNat % 256 = 5 then (if w.toNat / 256 % 2 = 0 then some .extract else none)
      else if w.toNat % 256 = 6 then some (.wpipe (decide (w.toNat / 256 % 2 = 1)))
      else if w.toNat % 256 = 7 then some (.rpipe (decide (w.toNat / 256 % 2 = 1)))
      else none

/-- R54: a word is legal exactly when the decoder accepts it; every word written to CMD while BUSY = 0 is accepted; an
illegal one completes with ILLEGAL_CMD and no other change, whatever the other registers hold. -/
def Obligations.IllegalWordsCompleteWithIllegalCmd : Prop :=
  ∀ w : Word,
    (legalWord w = false ↔ ∃ e, decode w = .error e) ∧
    (∀ (s : State) (rest : List HostEvent), s.busy = false → s.hostMoves (.writeCsr 0 w) rest →
      ∃ t, step s = .next t ∧ t.status = 0x001 ∧ t.engine = some w) ∧
    (legalWord w = false → ∀ s : State, s.completes w → ∃ t, step s = .next t ∧ OnlyStatus 0x012 s t)

/-! ### The step -/

/-- R8: when the word the engine holds is due and decodes to a command, the step is that command's completion, and nothing
is added around it; and the state with a word placed by withFetchWord runs it in the very next step. -/
def Obligations.StepRunsTheDecodedCommand : Prop :=
  (∀ (s : State) (w : Word) (i : Instr), s.completes w → decode w = .ok i → step s = exec i s) ∧
    ∀ (s : State) (w : Word) (i : Instr), decode w = .ok i →
      step (s.withFetchWord 32 w.toNat) = exec i (s.withFetchWord 32 w.toNat)

/-- 93_implementation_defined.md section 2: every host action in every state has a stated outcome; no step stops. -/
def Obligations.EveryStepAnswersANextState : Prop :=
  (∀ s : State, ∃ t, step s = .next t) ∧ ∀ (i : Instr) (s : State), ∃ t, exec i s = .next t

/-- R29, R28: the invariant holds right after reset, and the recovered text is the empty text. -/
def Obligations.InvariantHoldsAfterReset : Prop :=
  State.reset.Inv ∧ State.reset.textBytes = []

/-- R29: every step keeps the invariant: STATUS one of its ten values, BUSY = 1 exactly while a command is held, OUTLEN at
most OUTSZ, the memories in canonical form and within their spaces. -/
def Obligations.EveryStepKeepsTheInvariant : Prop :=
  ∀ s t : State, s.Inv → step s = .next t → t.Inv

/-- R25: OUT[0 .. OUTLEN) is well-formed UTF-8, and every step keeps it so. -/
def Obligations.RecoveredTextStaysUtf8 : Prop :=
  ∀ s t : State, s.Inv → utf8Valid s.textBytes = true → step s = .next t → utf8Valid t.textBytes = true

/-- R113, R44 (b) and (d): unless a reset intervenes, a command held by the engine is due after at most as many steps as its
busy interval (a free finite number, log entry 4) has host accesses left, and the block is then as it was at accept. -/
def Obligations.AcceptedCommandCompletes : Prop :=
  ∀ (s : State) (w : Word), s.engine = some w → s.busy = true → HostEvent.reset ∉ s.port →
    ∃ (k : Nat) (t : State), k ≤ s.busyLeft ∧ Sys2Proof.core.run k s = .next t ∧ t.completes w ∧ SameBlock s t

/-- R21, R103: with no host access to come and no command held, the block stays as it is. -/
def Obligations.IdleBlockStays : Prop :=
  ∀ s : State, s.port = [] → s.engine = none → step s = .next s

/-! ### The host port -/

/-- R12 to R19, R39, R40: HostRead(CSR, n) returns the register's value, its field with zeros above it, 0 for CMD and for the numbers from 7 on,
busy or not, and changes nothing of the block. -/
def Obligations.CsrReadReturnsTheRegister : Prop :=
  ∀ (s : State) (n : Nat) (rest : List HostEvent), s.hostMoves (.readCsr n) rest →
    ∃ (t : State) (v : Word), step s = .next t ∧ t.reply = .word v ∧ t.port = rest ∧ SameBlock s t ∧
      v.toNat =
        if n = 1 then s.status.toNat
        else if n = 2 then s.key.toNat
        else if n = 3 then s.width.toNat
        else if n = 4 then s.height.toNat
        else if n = 5 then s.msglen.toNat
        else if n = 6 then s.outlen.toNat
        else 0

/-- R12: CMD reads 0 without effect; a write to it while BUSY = 0 is the accept event, for every word; a write while
BUSY = 1 is dropped; an accepted word that encodes no command completes with ILLEGAL_CMD. -/
def Obligations.WriteToCmdIsTheAcceptEvent : Prop :=
  (∀ (s : State) (rest : List HostEvent),
    (s.hostMoves (.readCsr 0) rest → ∃ t, step s = .next t ∧ t.reply = .word 0 ∧ SameBlock s t) ∧
    ∀ w : Word, s.hostMoves (.writeCsr 0 w) rest →
      (s.busy = false → ∃ t, step s = .next t ∧ t.status = 0x001 ∧ t.engine = some w ∧ t.port = rest ∧
        SameInputs s t ∧ SameImage s t ∧ SameText s t ∧ t.params = s.params) ∧
      (s.busy = true → ∃ t, step s = .next t ∧ t.port = rest ∧ SameBlock s t)) ∧
  ∀ (s : State) (w : Word), legalWord w = false → s.completes w → ∃ t, step s = .next t ∧ t.status = 0x012

/-- R13 to R18: while BUSY = 0 a write to KEY, WIDTH, HEIGHT or MSGLEN sets that field to its bits of the word and changes nothing
else; a write to STATUS, OUTLEN or an undefined number is ignored. -/
def Obligations.RegisterWriteTakesItsField : Prop :=
  ∀ (s : State) (n : Nat) (w : Word) (rest : List HostEvent),
    s.hostMoves (.writeCsr n w) rest → s.busy = false → n ≠ 0 →
    ∃ t, step s = .next t ∧ t.port = rest ∧ t.reply = .nothing ∧
      t.key.toNat = (if n = 2 then w.toNat % 256 else s.key.toNat) ∧
      t.width.toNat = (if n = 3 then w.toNat % 65536 else s.width.toNat) ∧
      t.height.toNat = (if n = 4 then w.toNat % 65536 else s.height.toNat) ∧
      t.msglen = (if n = 5 then w else s.msglen) ∧
      t.status = s.status ∧ t.engine = s.engine ∧ t.params = s.params ∧
      (∀ j, t.msgByte j = s.msgByte j) ∧ SameImage s t ∧ SameText s t

/-- R19: the register numbers from 7 on read 0, ignore writes, and neither access changes any state of the block, busy or not. -/
def Obligations.UndefinedRegisterNumbersDoNothing : Prop :=
  ∀ (s : State) (n : Nat) (rest : List HostEvent), 7 ≤ n →
    (s.hostMoves (.readCsr n) rest → ∃ t, step s = .next t ∧ t.reply = .word 0 ∧ SameBlock s t) ∧
    ∀ w : Word, s.hostMoves (.writeCsr n w) rest → ∃ t, step s = .next t ∧ t.reply = .nothing ∧ SameBlock s t

/-- R38, R39: while BUSY = 0 a read of IMG, MSG or OUT returns the byte that stands there, 0 out of range (from 3 × MAXPIX,
MSGMAX, OUTSZ on), and changes nothing. -/
def Obligations.MemoryReadReturnsTheByte : Prop :=
  ∀ (s : State) (i : Nat) (rest : List HostEvent), s.busy = false →
    (s.hostMoves (.readByte .img i) rest → ∃ t, step s = .next t ∧ t.port = rest ∧ SameBlock s t ∧
      t.reply = .byte (if i < 3 * s.params.maxpix then s.imgByte i else 0)) ∧
    (s.hostMoves (.readByte .msg i) rest → ∃ t, step s = .next t ∧ t.port = rest ∧ SameBlock s t ∧
      t.reply = .byte (if i < s.params.msgmax then s.msgByte i else 0)) ∧
    (s.hostMoves (.readByte .out i) rest → ∃ t, step s = .next t ∧ t.port = rest ∧ SameBlock s t ∧
      t.reply = .byte (if i < (s.params.maxpix - 32) / 8 then s.outByte i else 0))

/-- R38, R39: while BUSY = 0 a write to IMG or MSG within range changes that one byte and nothing else; out of range, and to
any byte of OUT, it changes nothing. -/
def Obligations.MemoryWriteChangesOneByte : Prop :=
  ∀ (s : State) (space : Space) (i : Nat) (v : Byte) (rest : List HostEvent),
    s.busy = false → s.hostMoves (.writeByte space i v) rest →
    ∃ t, step s = .next t ∧ t.port = rest ∧ t.reply = .nothing ∧
      (∀ a, t.imgByte a = if space = .img ∧ i < 3 * s.params.maxpix ∧ a = i then v else s.imgByte a) ∧
      (∀ j, t.msgByte j = if space = .msg ∧ i < s.params.msgmax ∧ j = i then v else s.msgByte j) ∧
      SameText s t ∧ t.status = s.status ∧ t.engine = s.engine ∧ t.params = s.params ∧
      t.key = s.key ∧ t.width = s.width ∧ t.height = s.height ∧ t.msglen = s.msglen

/-- R40: while BUSY = 1 no host access changes the block: every write is dropped, CSR reads return the true values (STATUS
0x001, CMD 0), and a memory read returns some byte, which the statement leaves open. -/
def Obligations.BusyBlockIgnoresTheHost : Prop :=
  ∀ (s : State) (e : HostEvent) (rest : List HostEvent), s.Inv → s.busy = true → s.hostMoves e rest →
    ∃ t, step s = .next t ∧ SameBlock s t ∧
      (∀ n, e = .readCsr n → ∃ v : Word, t.reply = .word v ∧
        v.toNat = if n = 1 then 1 else if n = 2 then s.key.toNat else if n = 3 then s.width.toNat
          else if n = 4 then s.height.toNat else if n = 5 then s.msglen.toNat else if n = 6 then s.outlen.toNat else 0) ∧
      ∀ space i, e = .readByte space i → ∃ v, t.reply = .byte v

/-- R57: `wait` reads STATUS and is made again as long as it reads BUSY = 1; it changes nothing of the block. -/
def Obligations.WaitPollsStatus : Prop :=
  ∀ (s : State) (rest : List HostEvent), s.hostMoves .wait rest →
    ∃ t, step s = .next t ∧ t.reply = .word s.status ∧ SameBlock s t ∧
      t.port = if s.busy then .wait :: rest else rest

/-! ### Reset -/

/-- R28: after reset STATUS, KEY, WIDTH, HEIGHT, MSGLEN and OUTLEN are 0, no command is held, and every byte of IMG, MSG and
OUT is a free value, drawn afresh at each reset event; the same of the state the machine starts in. -/
def Obligations.ResetClearsTheRegisters : Prop :=
  (∀ (s : State) (rest : List HostEvent), s.port = .reset :: rest →
    ∃ t, step s = .next t ∧ t.status = 0 ∧ t.key = 0 ∧ t.width = 0 ∧ t.height = 0 ∧ t.msglen = 0 ∧ t.outlen = 0 ∧
      t.engine = none ∧ t.port = rest ∧ t.params = s.params ∧
      (∀ a, t.imgByte a = Config.initImg (s.resets + 1) a) ∧ (∀ j, t.msgByte j = Config.initMsg (s.resets + 1) j) ∧
      ∀ j, t.outByte j = Config.freeOut (s.outDraws + 1) j) ∧
  State.reset.status = 0 ∧ State.reset.key = 0 ∧ State.reset.width = 0 ∧ State.reset.height = 0 ∧
    State.reset.msglen = 0 ∧ State.reset.outlen = 0 ∧ State.reset.engine = none ∧
    (∀ a, ∃ k, State.reset.imgByte a = Config.initImg k a) ∧ (∀ j, ∃ k, State.reset.msgByte j = Config.initMsg k j) ∧
    ∀ j, ∃ k, State.reset.outByte j = Config.freeOut k j

/-- R105: a reset event comes before a due completion; it abandons the command held by the engine: DONE stays 0, no
completion of it follows, and the memories are unspecified as after any reset (free values, log entry 5). Nothing but a
reset stops a command: every other step keeps it in the engine or completes it. -/
def Obligations.ResetAbandonsTheCommand : Prop :=
  (∀ (s t : State) (w : Word), s.Inv → s.engine = some w → (∀ rest, s.port ≠ .reset :: rest) → step s = .next t →
    t.engine = some w ∨ s.completes w) ∧
  ∀ (s : State) (w : Word) (rest : List HostEvent), s.port = .reset :: rest → s.engine = some w →
    ∃ t, step s = .next t ∧ t.status = 0 ∧ t.engine = none ∧ (∀ v, ¬ t.completes v) ∧
      (∀ a, t.imgByte a = Config.initImg (s.resets + 1) a) ∧ (∀ j, t.msgByte j = Config.initMsg (s.resets + 1) j) ∧
      ∀ j, t.outByte j = Config.freeOut (s.outDraws + 1) j

/-! ### Errors -/

/-- R95: the completion of any accepted word reports the first error that applies: ILLEGAL_CMD, BAD_DIM, then BAD_LEN and
CAPACITY_EXCEEDED for the commands that run embed (EMBED and WPIPE with S = 1). -/
def Obligations.FirstErrorIsReported : Prop :=
  ∀ (s : State) (w : Word), s.completes w →
    ∃ t, step s = .next t ∧
      (errField t.status).toNat =
        if legalWord w = false then 1
        else if s.w = 0 ∨ s.h = 0 ∨ s.params.maxpix < s.w * s.h then 2
        else if (w = 0x004 ∨ w = 0x106) ∧ s.params.msgmax < s.msglen.toNat then 3
        else if (w = 0x004 ∨ w = 0x106) ∧ s.w * s.h < 32 + 8 * s.msglen.toNat then 4
        else 0

/-- R96, R98: a completion with ERR other than OK writes STATUS = {BUSY 0, DONE 1, ERR, XRES NONE} and changes nothing
else; the block is then idle. -/
def Obligations.ErrorsChangeStatusOnly : Prop :=
  ∀ (s t : State) (w : Word), s.completes w → step s = .next t → errField t.status ≠ 0 →
    t.status.toNat = 2 + 16 * (errField t.status).toNat ∧ OnlyStatus t.status s t ∧ t.busy = false

/-- R93 (BAD_DIM): with W = 0, H = 0 or W × H > MAXPIX every command completes with STATUS 0x022 and changes nothing else. -/
def Obligations.BadDimensionsStopEveryCommand : Prop :=
  ∀ (i : Instr) (s : State), ¬ s.validDims → ∃ t, exec i s = .next t ∧ OnlyStatus 0x022 s t

/-- R93 (BAD_LEN), R17: with MSGLEN > MSGMAX the commands that run embed complete with STATUS 0x032 and change nothing else. -/
def Obligations.TooLongMessageStopsEmbedding : Prop :=
  ∀ s : State, s.validDims → s.params.msgmax < s.mlen →
    (∃ t, exec .embed s = .next t ∧ OnlyStatus 0x032 s t) ∧ ∃ t, exec (.wpipe true) s = .next t ∧ OnlyStatus 0x032 s t

/-- R75, R88: the capacity test 32 + 8 × MSGLEN > W × H comes before any slot is written and before any stage: when it
holds, EMBED and WPIPE with S = 1 complete with STATUS 0x042 and change nothing else; when it does not, they succeed; with
fewer than 32 pixels it always holds. -/
def Obligations.CapacityIsTestedFirst : Prop :=
  ∀ s : State, s.validDims → s.mlen ≤ s.params.msgmax →
    (s.w * s.h < 32 + 8 * s.mlen →
      (∃ t, exec .embed s = .next t ∧ OnlyStatus 0x042 s t) ∧
        ∃ t, exec (.wpipe true) s = .next t ∧ OnlyStatus 0x042 s t) ∧
    (32 + 8 * s.mlen ≤ s.w * s.h →
      (∃ t, exec .embed s = .next t ∧ t.status = 0x002) ∧ ∃ t, exec (.wpipe true) s = .next t ∧ t.status = 0x002) ∧
    (s.w * s.h < 32 → s.w * s.h < 32 + 8 * s.mlen)

/-- R92, R13: every accepted word, legal or not, ends with BUSY = 0, DONE = 1, the engine idle, and STATUS one of the eight
completion values. -/
def Obligations.EveryCompletionSetsDone : Prop :=
  ∀ (s : State) (w : Word), s.completes w →
    ∃ t, step s = .next t ∧ t.engine = none ∧ busyBit t.status = false ∧ doneBit t.status = true ∧
      t.status ∈ [(0x002 : Word), 0x102, 0x202, 0x302, 0x012, 0x022, 0x032, 0x042]

/-! ### The cipher -/

/-- R60: the unit adds or subtracts with true mathematical modulo 256; in bits, the carry out of the 9-bit sum is discarded,
and subtracting k is adding 256 - k, or nothing when k is 0. -/
def Obligations.ModularAdderIsTrueModulo : Prop :=
  ∀ v k : Byte, (madd8 v k false).toNat = (v.toNat + k.toNat) % 256 ∧
    ((madd8 v k true).toNat : Int) = ((v.toNat : Int) - k.toNat) % 256 ∧
    madd8 v k false = (v.setWidth 9 + k.setWidth 9).setWidth 8 ∧
    madd8 v k true = if k = 0 then v else BitVec.ofNat 8 (v.toNat + (256 - k.toNat))

/-- R61: writing a signed key of any magnitude, as the low 32 bits of its two's complement, makes K the key's residue modulo
256, and K adds and subtracts as the key does; on any width of at least 8 bits the key's low 8 bits are that residue. -/
def Obligations.KeyIsReducedModulo256 : Prop :=
  (∀ (n : Nat) (key : Int), 8 ≤ n → (((BitVec.ofInt n key).setWidth 8).toNat : Int) = key % 256) ∧
  ∀ (s : State) (key : Int) (rest : List HostEvent), s.busy = false → s.hostMoves (scriptKey key) rest →
    ∃ t, step s = .next t ∧ (t.key.toNat : Int) = key % 256 ∧
      ∀ v : Byte, ((madd8 v t.key false).toNat : Int) = ((v.toNat : Int) + key) % 256 ∧
        ((madd8 v t.key true).toNat : Int) = ((v.toNat : Int) - key) % 256

/-- R62: ENC adds K modulo 256 to every sample of the image and changes nothing else but STATUS; with bad dimensions it
reports BAD_DIM and changes nothing else. -/
def Obligations.EncAddsTheKey : Prop :=
  decode 0x00000001 = .ok .enc ∧ ∀ s : State,
    (¬ s.validDims → ∃ t, exec .enc s = .next t ∧ OnlyStatus 0x022 s t) ∧
    (s.validDims →
      ∃ t, exec .enc s = .next t ∧ t.status = 0x002 ∧ t.engine = none ∧
        (∀ a, a < 3 * (s.w * s.h) → (t.imgByte a).toNat = ((s.imgByte a).toNat + s.key.toNat) % 256) ∧
        SameImageFrom (3 * (s.w * s.h)) s t ∧ SameInputs s t ∧ SameText s t ∧ SameSurroundings s t)

/-- R63: DEC subtracts K modulo 256 from every sample of the image and changes nothing else but STATUS; with bad dimensions
it reports BAD_DIM and changes nothing else. -/
def Obligations.DecSubtractsTheKey : Prop :=
  decode 0x00000002 = .ok .dec ∧ ∀ s : State,
    (¬ s.validDims → ∃ t, exec .dec s = .next t ∧ OnlyStatus 0x022 s t) ∧
    (s.validDims →
      ∃ t, exec .dec s = .next t ∧ t.status = 0x002 ∧ t.engine = none ∧
        (∀ a, a < 3 * (s.w * s.h) → ((t.imgByte a).toNat : Int) = (((s.imgByte a).toNat : Int) - s.key.toNat) % 256) ∧
        SameImageFrom (3 * (s.w * s.h)) s t ∧ SameInputs s t ∧ SameText s t ∧ SameSurroundings s t)

/-- R64: adding and subtracting one key undo each other, each is a bijection on the sample values, and at command level ENC
followed by DEC, or DEC by ENC, restores every byte of IMG as long as the host leaves W, H, KEY and IMG alone in between. -/
def Obligations.CipherRoundTrip : Prop :=
  (∀ v k : Byte, madd8 (madd8 v k false) k true = v ∧ madd8 (madd8 v k true) k false = v) ∧
  (∀ (k : Byte) (sub : Bool), Function.Bijective fun v => madd8 v k sub) ∧
  ∀ s : State, s.validDims →
    (∃ t, exec .enc s = .next t ∧ ∀ t' : State, SameImage t t' → t'.width = t.width → t'.height = t.height →
      t'.key = t.key → t'.params = t.params → ∃ u, exec .dec t' = .next u ∧ SameImage s u) ∧
    ∃ t, exec .dec s = .next t ∧ ∀ t' : State, SameImage t t' → t'.width = t.width → t'.height = t.height →
      t'.key = t.key → t'.params = t.params → ∃ u, exec .enc t' = .next u ∧ SameImage s u

/-- R65: ENC changes the least-significant bit of a sample exactly when K is odd. -/
def Obligations.EncFlipsParityExactlyForOddKeys : Prop :=
  ∀ s : State, s.validDims → ∃ t, exec .enc s = .next t ∧
    ∀ a, a < 3 * (s.w * s.h) → (t.imgByte a).getLsbD 0 = ((s.imgByte a).getLsbD 0 ^^ s.key.getLsbD 0)

/-! ### The permutation -/

/-- R66, R67: FLIP moves the pixel with flat index p to N - 1 - p, in coordinates (x, y) to (W - 1 - x, H - 1 - y), with its
three samples in channel order, and changes nothing else but STATUS; with bad dimensions it reports BAD_DIM and changes
nothing else. -/
def Obligations.FlipReflectsEveryPixel : Prop :=
  decode 0x00000003 = .ok .flip ∧ ∀ s : State,
    (¬ s.validDims → ∃ t, exec .flip s = .next t ∧ OnlyStatus 0x022 s t) ∧
    (s.validDims →
      ∃ t, exec .flip s = .next t ∧ t.status = 0x002 ∧ t.engine = none ∧
        (∀ p c, p < s.w * s.h → c < 3 → t.imgByte (3 * (s.w * s.h - 1 - p) + c) = s.imgByte (3 * p + c)) ∧
        (∀ x y c, x < s.w → y < s.h → c < 3 →
          t.imgByte (addr s.w (s.w - 1 - x) (s.h - 1 - y) c) = s.imgByte (addr s.w x y c)) ∧
        SameImageFrom (3 * (s.w * s.h)) s t ∧ SameInputs s t ∧ SameText s t ∧ SameSurroundings s t)

/-- R68: FLIP followed by FLIP restores every byte of IMG as long as the host leaves W, H and IMG alone in between. -/
def Obligations.FlipTwiceRestores : Prop :=
  ∀ s : State, s.validDims →
    ∃ t, exec .flip s = .next t ∧ ∀ t' : State, SameImage t t' → t'.width = t.width → t'.height = t.height →
      t'.params = t.params → ∃ u, exec .flip t' = .next u ∧ SameImage s u

/-- R69: FLIP commutes with ENC and with DEC. -/
def Obligations.FlipCommutesWithTheCipher : Prop :=
  ∀ s : State, s.validDims → ∀ i, i = .enc ∨ i = .dec →
    ∃ a b c d, exec i s = .next a ∧ exec .flip a = .next b ∧ exec .flip s = .next c ∧ exec i c = .next d ∧ SameImage b d

/-- R31, R32: byte index a below 3N is channel a mod 3 of the pixel with flat index p = a div 3, at column p mod W and row
p div W; and the samples of the W × H grid stand at the indices below 3N, each at its own. -/
def Obligations.ImageLayoutIsInvertible : Prop :=
  (∀ w h a : Nat, a < 3 * (w * h) →
    pixelOf a % w < w ∧ pixelOf a / w < h ∧ channelOf a < 3 ∧ addr w (pixelOf a % w) (pixelOf a / w) (channelOf a) = a) ∧
  ∀ w h x y c : Nat, x < w → y < h → c < 3 →
    addr w x y c < 3 * (w * h) ∧ pixelOf (addr w x y c) = y * w + x ∧ channelOf (addr w x y c) = c ∧
      pixelOf (addr w x y c) % w = x ∧ pixelOf (addr w x y c) / w = y

/-! ### The codec -/

/-- R73: the parity adjustment sets bit 0 and keeps bits 7:1, moves an even sample up and an odd sample down by one when bit
0 differs and not at all when it agrees, and never leaves 0 to 255; also at the boundary values. -/
def Obligations.ParityAdjustmentSetsTheLowBit : Prop :=
  (∀ (v : Byte) (b : Bool), setLsb v b = ((v &&& 0xFE) ||| BitVec.setWidth 8 (BitVec.ofBool b)) ∧
    (v.getLsbD 0 = b → setLsb v b = v) ∧
    (v.getLsbD 0 ≠ b → v.toNat % 2 = 1 → b = false ∧ (setLsb v b).toNat = v.toNat - 1 ∧ 1 ≤ v.toNat) ∧
    (v.getLsbD 0 ≠ b → v.toNat % 2 = 0 → b = true ∧ (setLsb v b).toNat = v.toNat + 1)) ∧
  setLsb 0 true = 1 ∧ setLsb 255 false = 254

/-- R74, R72, R35, R76: EMBED sets slots 0 to 31 to the bits of L = 8 × MLEN, most significant first, and the slots from 32
on to the message bits, most significant first in each byte; it changes no other bit of IMG and nothing else but STATUS.
With bad dimensions, a message above MSGMAX, or a bitstream above the capacity it reports the error and changes nothing
else. -/
def Obligations.EmbedWritesTheBitstream : Prop :=
  decode 0x00000004 = .ok .embed ∧ ∀ s : State,
    (¬ s.validDims → ∃ t, exec .embed s = .next t ∧ OnlyStatus 0x022 s t) ∧
    (s.validDims → s.params.msgmax < s.mlen → ∃ t, exec .embed s = .next t ∧ OnlyStatus 0x032 s t) ∧
    (s.validDims → s.mlen ≤ s.params.msgmax → s.w * s.h < 32 + 8 * s.mlen →
      ∃ t, exec .embed s = .next t ∧ OnlyStatus 0x042 s t) ∧
    (s.validDims → s.embedFits →
      ∃ t, exec .embed s = .next t ∧ t.status = 0x002 ∧ t.engine = none ∧
        (∀ i, i < 32 → (t.imgByte (3 * i)).getLsbD 0 = (8 * s.mlen).testBit (31 - i)) ∧
        (∀ j u, j < s.mlen → u < 8 → (t.imgByte (3 * (32 + 8 * j + u))).getLsbD 0 = (s.msgByte j).getLsbD (7 - u)) ∧
        (∀ a k, k ≠ 0 → (t.imgByte a).getLsbD k = (s.imgByte a).getLsbD k) ∧
        (∀ a, a % 3 ≠ 0 ∨ 3 * (32 + 8 * s.mlen) ≤ a → t.imgByte a = s.imgByte a) ∧
        SameInputs s t ∧ SameText s t ∧ SameSurroundings s t)

/-- R74: repeating EMBED with the same MSG, MSGLEN, W and H changes no byte of IMG. -/
def Obligations.EmbedIsIdempotent : Prop :=
  ∀ s : State, s.validDims → s.embedFits →
    ∃ t, exec .embed s = .next t ∧ ∀ t' : State, SameImage t t' → SameInputs t t' → t'.params = t.params →
      ∃ u, exec .embed t' = .next u ∧ SameImage t u

/-- R77 to R79, R81, R82: EXTRACT reads the header and the bytes from the slots and reports them in XRES, OUTLEN and OUT; it
changes no byte of IMG and no input. What OUT holds beyond OUTLEN is left open. With bad dimensions it reports BAD_DIM and
changes nothing else. -/
def Obligations.ExtractReportsTheSlots : Prop :=
  decode 0x00000005 = .ok .extract ∧ ∀ s : State,
    (¬ s.validDims → ∃ t, exec .extract s = .next t ∧ OnlyStatus 0x022 s t) ∧
    (s.validDims →
      ∃ t, exec .extract s = .next t ∧ t.engine = none ∧ ReportsExtract (s.w * s.h) s.imgByte t ∧
        SameImage s t ∧ SameInputs s t ∧ SameSurroundings s t)

/-- R82, R78: with fewer than 32 pixels, or a header of 0 or above N - 32, EXTRACT reports ABSENT_RANGE and OUTLEN = 0; a
header of exactly N - 32 is in range. -/
def Obligations.HeaderRangeIsChecked : Prop :=
  ∀ s : State, s.validDims →
    ∃ t, exec .extract s = .next t ∧
      (xresField t.status = 2 ↔
        s.w * s.h < 32 ∨ headerOf s.imgByte = 0 ∨ (32 ≤ s.w * s.h ∧ s.w * s.h - 32 < headerOf s.imgByte)) ∧
      (xresField t.status = 2 → t.status = 0x202 ∧ t.outlen = 0)

/-- R80: a byte sequence is valid exactly when it is a concatenation of groups, each of one of the nine forms. The table is
the spec's, which marks it as general knowledge (G1, log entry 8). -/
def Obligations.Utf8IsTheNineForms : Prop :=
  ∀ bytes : List Byte, utf8Valid bytes = true ↔
    ∃ groups : List (List Byte), bytes = groups.flatten ∧ ∀ g ∈ groups,
      (∃ a, g = [a] ∧ a.toNat ≤ 0x7F) ∨
      (∃ a b, g = [a, b] ∧ 0xC2 ≤ a.toNat ∧ a.toNat ≤ 0xDF ∧ 0x80 ≤ b.toNat ∧ b.toNat ≤ 0xBF) ∨
      (∃ a b c, g = [a, b, c] ∧ 0x80 ≤ c.toNat ∧ c.toNat ≤ 0xBF ∧
        ((a = 0xE0 ∧ 0xA0 ≤ b.toNat ∧ b.toNat ≤ 0xBF) ∨
          (0xE1 ≤ a.toNat ∧ a.toNat ≤ 0xEC ∧ 0x80 ≤ b.toNat ∧ b.toNat ≤ 0xBF) ∨
          (a = 0xED ∧ 0x80 ≤ b.toNat ∧ b.toNat ≤ 0x9F) ∨
          (0xEE ≤ a.toNat ∧ a.toNat ≤ 0xEF ∧ 0x80 ≤ b.toNat ∧ b.toNat ≤ 0xBF))) ∨
      (∃ a b c d, g = [a, b, c, d] ∧ 0x80 ≤ c.toNat ∧ c.toNat ≤ 0xBF ∧ 0x80 ≤ d.toNat ∧ d.toNat ≤ 0xBF ∧
        ((a = 0xF0 ∧ 0x90 ≤ b.toNat ∧ b.toNat ≤ 0xBF) ∨
          (0xF1 ≤ a.toNat ∧ a.toNat ≤ 0xF3 ∧ 0x80 ≤ b.toNat ∧ b.toNat ≤ 0xBF) ∨
          (a = 0xF4 ∧ 0x80 ≤ b.toNat ∧ b.toNat ≤ 0x8F)))

/-- R83, R84: EMBED followed by EXTRACT, with W, H and IMG left alone in between, gives a message of at least one byte back
if it is valid UTF-8, ABSENT_UTF8 if it is not, and ABSENT_RANGE for the empty message. -/
def Obligations.StegoRoundTrip : Prop :=
  ∀ s : State, s.validDims → s.embedFits →
    ∃ t, exec .embed s = .next t ∧ ∀ t' : State, SameImage t t' → t'.width = t.width → t'.height = t.height →
      t'.params = t.params → ∃ u, exec .extract t' = .next u ∧
        (1 ≤ s.mlen → utf8Valid ((List.range s.mlen).map s.msgByte) = true →
          u.status = 0x102 ∧ u.outlen = s.msglen ∧ ∀ j, j < s.mlen → u.outByte j = s.msgByte j) ∧
        (1 ≤ s.mlen → utf8Valid ((List.range s.mlen).map s.msgByte) = false → u.status = 0x302 ∧ u.outlen = 0) ∧
        (s.mlen = 0 → u.status = 0x202 ∧ u.outlen = 0)

/-! ### The pipelines -/

/-- R86: WPIPE in closed form: the sample of channel c of pixel p goes to pixel N - 1 - p with K added modulo 256, after the
slot's bit was embedded when S = 1; nothing else changes but STATUS. With bad dimensions, and with S = 1 also with a message
above MSGMAX or a bitstream above the capacity, it reports the error and changes nothing else. -/
def Obligations.WritePipelineInClosedForm : Prop :=
  decode 0x00000006 = .ok (.wpipe false) ∧ decode 0x00000106 = .ok (.wpipe true) ∧ ∀ (stego : Bool) (s : State),
    (¬ s.validDims → ∃ t, exec (.wpipe stego) s = .next t ∧ OnlyStatus 0x022 s t) ∧
    (s.validDims → stego = true → s.params.msgmax < s.mlen →
      ∃ t, exec (.wpipe stego) s = .next t ∧ OnlyStatus 0x032 s t) ∧
    (s.validDims → stego = true → s.mlen ≤ s.params.msgmax → s.w * s.h < 32 + 8 * s.mlen →
      ∃ t, exec (.wpipe stego) s = .next t ∧ OnlyStatus 0x042 s t) ∧
    (s.validDims → (stego = true → s.embedFits) →
      ∃ t, exec (.wpipe stego) s = .next t ∧ t.status = 0x002 ∧ t.engine = none ∧
        (∀ p c, p < s.w * s.h → c < 3 →
          (t.imgByte (3 * (s.w * s.h - 1 - p) + c)).toNat =
            ((if stego = true ∧ c = 0 ∧ p < 32 + 8 * s.mlen
              then setLsb (s.imgByte (3 * p)) (streamBit (8 * s.mlen) s.msgByte p)
              else s.imgByte (3 * p + c)).toNat + s.key.toNat) % 256) ∧
        SameImageFrom (3 * (s.w * s.h)) s t ∧ SameInputs s t ∧ SameText s t ∧ SameSurroundings s t)

/-- R87: RPIPE in closed form: the sample of channel c of pixel p goes to pixel N - 1 - p with K subtracted modulo 256; with
S = 1 the extract of that new image is reported, with S = 0 OUT and OUTLEN stay and XRES is NONE. With bad dimensions it
reports BAD_DIM and changes nothing else. -/
def Obligations.ReadPipelineInClosedForm : Prop :=
  decode 0x00000007 = .ok (.rpipe false) ∧ decode 0x00000107 = .ok (.rpipe true) ∧ ∀ (stego : Bool) (s : State),
    (¬ s.validDims → ∃ t, exec (.rpipe stego) s = .next t ∧ OnlyStatus 0x022 s t) ∧
    (s.validDims →
      ∃ t, exec (.rpipe stego) s = .next t ∧ t.engine = none ∧
        (∀ p c, p < s.w * s.h → c < 3 →
          ((t.imgByte (3 * (s.w * s.h - 1 - p) + c)).toNat : Int) =
            (((s.imgByte (3 * p + c)).toNat : Int) - s.key.toNat) % 256) ∧
        SameImageFrom (3 * (s.w * s.h)) s t ∧ SameInputs s t ∧ SameSurroundings s t ∧
        (stego = true → ReportsExtract (s.w * s.h) t.imgByte t) ∧
        (stego = false → t.status = 0x002 ∧ SameText s t))

/-- R89: RPIPE after WPIPE, with W, H, K and IMG left alone in between, gives the image before the cipher back: the original
when S was 0; when S was 1 the embedded image, which EMBED alone would have left; and with S = 1 on both a valid UTF-8
message of at least one byte comes back. -/
def Obligations.PipelineRoundTrip : Prop :=
  ∀ (hide reveal : Bool) (s : State), s.validDims → (hide = true → s.embedFits) →
    ∃ t, exec (.wpipe hide) s = .next t ∧ ∀ t' : State, SameImage t t' → t'.width = t.width → t'.height = t.height →
      t'.key = t.key → t'.params = t.params → ∃ u, exec (.rpipe reveal) t' = .next u ∧
        (hide = false → SameImage s u) ∧
        (hide = true → ∃ e, exec .embed s = .next e ∧ SameImage e u) ∧
        (hide = true → reveal = true → 1 ≤ s.mlen → utf8Valid ((List.range s.mlen).map s.msgByte) = true →
          u.status = 0x102 ∧ u.outlen = s.msglen ∧ ∀ j, j < s.mlen → u.outByte j = s.msgByte j)

/-- R90: when all complete with ERR = OK, WPIPE has the effect on IMG of ENC; FLIP, and with S = 1 of EMBED; ENC; FLIP; RPIPE
that of FLIP; DEC, and with S = 1 also the effect on OUT[0 .. OUTLEN), OUTLEN and XRES of FLIP; DEC; EXTRACT. When the
message does not fit, EMBED; ENC; FLIP still encrypts and flips, whereas WPIPE with S = 1 leaves the image as it is. -/
def Obligations.PipelinesEqualSingleStages : Prop :=
  ∀ s : State, s.validDims →
    (∃ t a b, exec (.wpipe false) s = .next t ∧ exec .enc s = .next a ∧ exec .flip a = .next b ∧ SameImage b t) ∧
    (s.embedFits → ∃ t a b c, exec (.wpipe true) s = .next t ∧
      exec .embed s = .next a ∧ exec .enc a = .next b ∧ exec .flip b = .next c ∧ SameImage c t) ∧
    (¬ s.embedFits → ∃ t a b c u, exec (.wpipe true) s = .next t ∧ SameImage s t ∧
      exec .embed s = .next a ∧ SameImage s a ∧ exec .enc a = .next b ∧ exec .flip b = .next c ∧
      exec (.wpipe false) s = .next u ∧ SameImage u c) ∧
    (∃ t a b, exec (.rpipe false) s = .next t ∧ exec .flip s = .next a ∧ exec .dec a = .next b ∧ SameImage b t) ∧
    ∃ t a b c, exec (.rpipe true) s = .next t ∧
      exec .flip s = .next a ∧ exec .dec a = .next b ∧ exec .extract b = .next c ∧ SameImage c t ∧
      t.outlen = c.outlen ∧ xresField t.status = xresField c.status ∧
      ∀ j, j < c.outlen.toNat → t.outByte j = c.outByte j

/-! ### Whole-machine rules -/

/-- R22, R114: STATUS changes only by reset (to 0), by a completion (to BUSY 0, DONE 1), or by the accept event (to 0x001,
from BUSY 0); in every other step STATUS and the command held stay. -/
def Obligations.StatusChangesOnlyByItsEvents : Prop :=
  ∀ s t : State, step s = .next t →
    (∃ rest, s.port = .reset :: rest ∧ t.status = 0 ∧ t.engine = none) ∨
    (∃ w, s.completes w ∧ busyBit t.status = false ∧ doneBit t.status = true ∧ t.engine = none) ∨
    (∃ w rest, s.hostMoves (.writeCsr 0 w) rest ∧ s.busy = false ∧ t.status = 0x001 ∧ t.engine = some w) ∨
    (t.status = s.status ∧ t.engine = s.engine)

/-- R18, R25: OUTLEN and OUT change only by reset or by the completion of EXTRACT or of RPIPE with S = 1 with ERR = OK. -/
def Obligations.TextChangesOnlyByExtract : Prop :=
  ∀ s t : State, step s = .next t →
    SameText s t ∨ (∃ rest, s.port = .reset :: rest) ∨
      ∃ w, s.completes w ∧ (w = 0x005 ∨ w = 0x107) ∧ errField t.status = 0

/-- R20, R24, R40: KEY, WIDTH, HEIGHT, MSGLEN and MSG change only by reset or by a host write to them while BUSY = 0; no
command writes them. -/
def Obligations.InputsChangeOnlyByTheHost : Prop :=
  ∀ s t : State, step s = .next t →
    SameInputs s t ∨ (∃ rest, s.port = .reset :: rest) ∨
      (s.busy = false ∧ ∃ e rest, s.hostMoves e rest ∧
        ((∃ n w, e = .writeCsr n w ∧ 2 ≤ n ∧ n ≤ 5) ∨ ∃ j v, e = .writeByte .msg j v ∧ j < s.params.msgmax))

/-- R5: MAXPIX and MSGMAX are parameters: no step changes them, a reset event included. They stand in the state by the
model's choice (log entry 1). -/
def Obligations.ParametersNeverChange : Prop :=
  ∀ s t : State, step s = .next t → t.params = s.params

/-- R27, R91, R22: the result of a command depends only on the word and on KEY, WIDTH, HEIGHT, MSGLEN, IMG and MSG (and the parameters): not on
STATUS, OUTLEN, OUT, or on anything an earlier command left behind. -/
def Obligations.CommandsDependOnlyOnTheirOperands : Prop :=
  ∀ (i : Instr) (s s' : State), SameOperands s s' →
    ∃ t t', exec i s = .next t ∧ exec i s' = .next t' ∧ t'.status = t.status ∧ SameImage t t' ∧
      (runsExtract i = true → errField t.status = 0 →
        t'.outlen = t.outlen ∧ ∀ j, j < t.outlen.toNat → t'.outByte j = t.outByte j)

/-- R17, R86: MSGLEN and MSG do not matter to a command that runs no embed: with any other message the outcome and the image
are the same. -/
def Obligations.MessageMattersOnlyToEmbedding : Prop :=
  ∀ (i : Instr) (s s' : State), runsEmbed i = false → SameImage s s' → s'.key = s.key → s'.width = s.width →
    s'.height = s.height → s'.params = s.params →
    ∃ t t', exec i s = .next t ∧ exec i s' = .next t' ∧ t'.status = t.status ∧ SameImage t t' ∧
      (runsExtract i = true → errField t.status = 0 →
        t'.outlen = t.outlen ∧ ∀ j, j < t.outlen.toNat → t'.outByte j = t.outByte j)

/-- R109: when the host has written every byte the command reads, the free contents of the memories (log entries 5 and 6)
reach no result: with other draws STATUS, the image, OUTLEN and the recovered text are the same. -/
def Obligations.WrittenOperandsFixTheResult : Prop :=
  ∀ (i : Instr) (s : State) (resets outDraws draws : Nat),
    s.imageWritten → (runsEmbed i = true → s.messageWritten) →
    ∃ t t', exec i s = .next t ∧
      exec i { s with resets := resets, outDraws := outDraws, draws := draws } = .next t' ∧
      t'.status = t.status ∧ t'.outlen = t.outlen ∧
      (∀ a, a < s.samples → t'.imgByte a = t.imgByte a) ∧
      (runsExtract i = true → errField t.status = 0 → ∀ j, j < t.outlen.toNat → t'.outByte j = t.outByte j)
end

