-- ==== Sys2Proof/Laws/Codec.lean ====
section
/-! SUPPORT. The laws of the codec's own functions: the parity adjustment, numbers read from bits, and the length of a
recovered text. -/

namespace Sys2Proof.Machine

/-! ### The parity adjustment -/

/-- Bit 0 becomes the target bit. -/
@[simp] theorem setLsb_bit0 (v : Byte) (b : Bool) : (setLsb v b).getLsbD 0 = b := by
  revert v b
  decide

/-- Every other bit stays. -/
theorem setLsb_high (v : Byte) (b : Bool) (k : Nat) (hk : k ≠ 0) : (setLsb v b).getLsbD k = v.getLsbD k := by
  have h : ∀ (v : Byte) (b : Bool) (k : Fin 8), k ≠ 0 → (setLsb v b).getLsbD k = v.getLsbD k := by decide
  by_cases hk8 : k < 8
  · exact h v b ⟨k, hk8⟩ (fun h0 => hk (congrArg Fin.val h0))
  · rw [BitVec.getLsbD_of_ge _ _ (by omega), BitVec.getLsbD_of_ge _ _ (by omega)]

/-! ### Numbers read from bits -/

theorem bitsValue_zero (bit : Nat → Bool) : bitsValue 0 bit = 0 := rfl

/-- One more bit at the end doubles the number and adds the bit. -/
theorem bitsValue_succ (n : Nat) (bit : Nat → Bool) : bitsValue (n + 1) bit = 2 * bitsValue n bit + (bit n).toNat := by
  have h : ∀ i ∈ List.range n, (bit i).toNat * 2 ^ (n + 1 - 1 - i) = 2 * ((bit i).toNat * 2 ^ (n - 1 - i)) := by
    intro i hi
    have hi : i < n := List.mem_range.1 hi
    have he : n + 1 - 1 - i = n - 1 - i + 1 := by omega
    rw [he, Nat.pow_succ]
    ring
  rw [bitsValue, List.range_succ, List.map_append, List.sum_append, List.map_congr_left h, List.sum_map_mul_left]
  simp [bitsValue]

/-- A number read from n bits is below 2^n. -/
theorem bitsValue_lt (n : Nat) (bit : Nat → Bool) : bitsValue n bit < 2 ^ n := by
  induction n with
  | zero => simp [bitsValue_zero]
  | succ n ih =>
    rw [bitsValue_succ, Nat.pow_succ]
    have : (bit n).toNat ≤ 1 := Bool.toNat_le _
    omega

/-- Bit n-1-i of the number is the i-th bit read: the first bit read is the most significant. -/
theorem bitsValue_testBit (n : Nat) (bit : Nat → Bool) (i : Nat) (hi : i < n) :
    (bitsValue n bit).testBit (n - 1 - i) = bit i := by
  induction n generalizing i with
  | zero => omega
  | succ n ih =>
    rw [bitsValue_succ]
    rcases Nat.lt_succ_iff_lt_or_eq.1 hi with h | rfl
    · have he : n + 1 - 1 - i = (n - 1 - i) + 1 := by omega
      rw [he, Nat.testBit_succ, ← ih i h]
      congr 1
      have : (bit n).toNat ≤ 1 := Bool.toNat_le _
      omega
    · simp only [Nat.add_sub_cancel, Nat.sub_self, Nat.testBit_zero]
      cases bit i <;> simp

/-- Reading back the bits of a number below 2^n, most significant first, gives the number. -/
theorem bitsValue_of_testBit (n v : Nat) (hv : v < 2 ^ n) : bitsValue n (fun i => v.testBit (n - 1 - i)) = v := by
  apply Nat.eq_of_testBit_eq
  intro k
  by_cases hk : k < n
  · have h := bitsValue_testBit n (fun i => v.testBit (n - 1 - i)) (n - 1 - k) (by omega)
    have he : n - 1 - (n - 1 - k) = k := by omega
    simpa only [he] using h
  · have hp : 2 ^ n ≤ 2 ^ k := Nat.pow_le_pow_right (by omega) (by omega)
    rw [Nat.testBit_lt_two_pow (Nat.lt_of_lt_of_le (bitsValue_lt _ _) hp),
      Nat.testBit_lt_two_pow (Nat.lt_of_lt_of_le hv hp)]

/-- Numbers read from equal bits are equal. -/
theorem bitsValue_congr {n : Nat} {f g : Nat → Bool} (h : ∀ i, i < n → f i = g i) : bitsValue n f = bitsValue n g := by
  have : (List.range n).map (fun i => (f i).toNat * 2 ^ (n - 1 - i)) =
      (List.range n).map fun i => (g i).toNat * 2 ^ (n - 1 - i) :=
    List.map_congr_left fun i hi => by rw [h i (List.mem_range.1 hi)]
  rw [bitsValue, this, bitsValue]

/-! ### The recovered text -/

@[simp] theorem payloadBytes_length (image : Image) (nb : Nat) : (payloadBytes image nb).length = nb := by
  simp [payloadBytes]

/-- What extract_img answers: an absent outcome with no text, or TEXT with the valid bytes of an in-range header. -/
theorem extractImg_cases (n : Nat) (image : Image) :
    (extractImg n image = (.absentRange, []) ∧ (n < 32 ∨ headerOf image = 0 ∨ n - 32 < headerOf image)) ∨
      (32 ≤ n ∧ headerOf image ≠ 0 ∧ headerOf image ≤ n - 32 ∧
        ((utf8Valid (payloadBytes image (headerOf image / 8)) = true ∧
            extractImg n image = (.text, payloadBytes image (headerOf image / 8))) ∨
          (utf8Valid (payloadBytes image (headerOf image / 8)) = false ∧ extractImg n image = (.absentUtf8, [])))) := by
  unfold extractImg
  split
  · exact .inl ⟨rfl, .inl ‹_›⟩
  · split
    · exact .inl ⟨rfl, .inr ‹_›⟩
    · rename_i h1 h2
      refine .inr ⟨by omega, by omega, by omega, ?_⟩
      cases hv : utf8Valid (payloadBytes image (headerOf image / 8))
      · exact .inr ⟨rfl, by simp⟩
      · exact .inl ⟨rfl, by simp⟩

/-- The text of an extract is well-formed UTF-8 (R80). -/
theorem extractImg_utf8 (n : Nat) (image : Image) : utf8Valid (extractImg n image).2 = true := by
  rcases extractImg_cases n image with ⟨h, -⟩ | ⟨-, -, -, ⟨hv, h⟩ | ⟨-, h⟩⟩ <;> rw [h]
  · rfl
  · exact hv
  · rfl

/-- The text of an extract has at most (n - 32) div 8 bytes (R79). -/
theorem extractImg_length_le (n : Nat) (image : Image) : (extractImg n image).2.length ≤ (n - 32) / 8 := by
  rcases extractImg_cases n image with ⟨h, -⟩ | ⟨-, -, hle, ⟨-, h⟩ | ⟨-, h⟩⟩ <;> rw [h]
  · simp
  · rw [payloadBytes_length]
    exact Nat.div_le_div_right hle
  · simp

/-- An extract reads the slots below n only: images that agree there have the same outcome. -/
theorem extractImg_congr {n : Nat} {f g : Image} (h : ∀ a, a < 3 * n → f a = g a) :
    extractImg n f = extractImg n g := by
  by_cases hn : n < 32
  · simp [extractImg, hn]
  · have hs : ∀ i, i < n → slotBit f i = slotBit g i := fun i hi => by
      rw [slotBit, h _ (by omega), slotBit]
    have hh : headerOf f = headerOf g := bitsValue_congr fun i hi => hs i (by omega)
    by_cases hr : headerOf g = 0 ∨ n - 32 < headerOf g
    · simp [extractImg, hn, hh, hr]
    · have hp : payloadBytes f (headerOf g / 8) = payloadBytes g (headerOf g / 8) := by
        refine List.map_congr_left fun j hj => ?_
        have hj := List.mem_range.1 hj
        rw [payloadByte, payloadByte, bitsValue_congr fun t ht => hs _ ?_]
        omega
      simp [extractImg, hn, hh, hr, hp]

end Sys2Proof.Machine
end

