-- ==== Sys2Proof/Laws/Decode.lean ====
section
/-! SUPPORT. The laws of decoding: how the fields read as numbers, and what each outcome of decode says of the fields. -/

namespace Sys2Proof

theorem opcField_toNat (w : Word) : (opcField w).toNat = w.toNat % 256 := by
  simp [opcField, BitVec.extractLsb'_toNat]

theorem stegoField_eq (w : Word) : stegoField w = decide (w.toNat / 256 % 2 = 1) := by
  rw [stegoField, BitVec.getLsbD, Nat.testBit_eq_decide_div_mod_eq]

theorem reservedField_toNat (w : Word) : (reservedField w).toNat = w.toNat / 512 := by
  have h := w.isLt
  simp only [reservedField, BitVec.extractLsb'_toNat, Nat.shiftRight_eq_div_pow]
  exact Nat.mod_eq_of_lt (by omega)

/-- The three fields make up the word (R50). -/
theorem word_of_fields (w : Word) : w.toNat = 512 * (reservedField w).toNat + 256 * (stegoField w).toNat + (opcField w).toNat := by
  rw [reservedField_toNat, opcField_toNat, stegoField_eq]
  by_cases h : w.toNat / 256 % 2 = 1 <;> simp [h] <;> omega

/-- The word of the given operation code and S bit, as a number. -/
theorem commandWord_toNat (opc : BitVec 8) (stego : Bool) : (commandWord opc stego).toNat = 256 * stego.toNat + opc.toNat := by
  have h := opc.isLt
  rw [commandWord, BitVec.toNat_append, ← Nat.shiftLeft_add_eq_or_of_lt h, Nat.shiftLeft_eq]
  cases stego <;> simp

/-- Two words with the same number in every field are one word. -/
theorem word_ext_fields {w v : Word} (hr : reservedField w = reservedField v) (hs : stegoField w = stegoField v)
    (ho : opcField w = opcField v) : w = v := by
  apply BitVec.eq_of_toNat_eq
  rw [word_of_fields w, word_of_fields v, hr, hs, ho]

/-- What an accepted word says of its fields: no reserved bit, the operation code of the command, and the S bit where the
command has one (R55). -/
theorem decode_ok_fields {w : Word} {i : Instr} (h : decode w = .ok i) :
    reservedField w = 0 ∧
      ((opcField w = 0x01 ∧ stegoField w = false ∧ i = .enc) ∨ (opcField w = 0x02 ∧ stegoField w = false ∧ i = .dec) ∨
        (opcField w = 0x03 ∧ stegoField w = false ∧ i = .flip) ∨ (opcField w = 0x04 ∧ stegoField w = false ∧ i = .embed) ∨
        (opcField w = 0x05 ∧ stegoField w = false ∧ i = .extract) ∨ (opcField w = 0x06 ∧ i = .wpipe (stegoField w)) ∨
        (opcField w = 0x07 ∧ i = .rpipe (stegoField w))) := by
  unfold decode withoutStego at h
  split at h
  · simp at h
  · rename_i hr
    have hr : reservedField w = 0 := by simpa using hr
    refine ⟨hr, ?_⟩
    split_ifs at h <;> simp_all

end Sys2Proof
end

