-- ==== Sys2Proof/Laws/Memory.lean ====
section
/-! SUPPORT. The laws of the byte memories: what a read gives after each operation, and that every operation keeps the
canonical form. -/

namespace Sys2Proof.Machine

@[simp] theorem Memory.get?_nil (a : Nat) : Memory.get? [] a = none := rfl

theorem Memory.get?_cons (c : Host.Cell) (m : Memory) (a : Nat) :
    Memory.get? (c :: m) a = if c.1 = a then some c.2 else Memory.get? m a := rfl

/-! ### One byte written -/

/-- A read after a write: the byte written there, and what stood before anywhere else. -/
theorem Memory.get?_write (m : Memory) (a : Nat) (v : Byte) (b : Nat) :
    (m.write a v).get? b = if b = a then some v else m.get? b := by
  induction m with
  | nil =>
    by_cases h : b = a
    · simp [Memory.write, Memory.get?_cons, h]
    · simp [Memory.write, Memory.get?_cons, h, Ne.symm h]
  | cons c m ih =>
    simp only [Memory.write]
    split
    · simp only [Memory.get?_cons]
      split_ifs <;> first | rfl | omega
    · split
      · simp only [Memory.get?_cons]
        split_ifs <;> first | rfl | omega
      · simp only [Memory.get?_cons, ih]
        split_ifs <;> first | rfl | omega

/-- What a write lists: the written byte, or what was listed before. -/
theorem Memory.mem_write {m : Memory} {a : Nat} {v : Byte} {c : Host.Cell} (h : c ∈ m.write a v) :
    c = (a, v) ∨ c ∈ m := by
  induction m with
  | nil => simpa [Memory.write] using h
  | cons d m ih =>
    simp only [Memory.write] at h
    split at h
    · simpa using h
    · split at h
      · rcases List.mem_cons.1 h with h | h
        · exact .inl h
        · exact .inr (List.mem_cons_of_mem _ h)
      · rcases List.mem_cons.1 h with h | h
        · exact .inr (h ▸ List.mem_cons_self)
        · rcases ih h with h | h
          · exact .inl h
          · exact .inr (List.mem_cons_of_mem _ h)

/-- A write keeps the canonical form. -/
theorem Memory.wf_write {m : Memory} (hm : m.wf) (a : Nat) (v : Byte) : (m.write a v).wf := by
  induction m with
  | nil => simp [Memory.write, Memory.wf]
  | cons d m ih =>
    obtain ⟨hd, hm⟩ := List.pairwise_cons.1 hm
    simp only [Memory.write]
    split
    · rename_i h
      refine List.pairwise_cons.2 ⟨fun c hc => ?_, List.pairwise_cons.2 ⟨hd, hm⟩⟩
      rcases List.mem_cons.1 hc with rfl | hc
      · exact h
      · exact Nat.lt_trans h (hd c hc)
    · split
      · rename_i h
        exact List.pairwise_cons.2 ⟨fun c hc => h ▸ hd c hc, hm⟩
      · refine List.pairwise_cons.2 ⟨fun c hc => ?_, ih hm⟩
        rcases Memory.mem_write hc with rfl | hc
        · show d.1 < a
          omega
        · exact hd c hc

/-! ### A whole result written -/

theorem Memory.get?_append (m m' : Memory) (a : Nat) :
    Memory.get? (m ++ m') a = (Memory.get? m a).or (Memory.get? m' a) := by
  induction m with
  | nil => simp
  | cons c m ih =>
    simp only [List.cons_append, Memory.get?_cons, ih]
    split <;> simp

theorem Memory.get?_filter_ge (m : Memory) (n a : Nat) :
    Memory.get? (m.filter fun c => decide (n ≤ c.1)) a = if a < n then none else m.get? a := by
  induction m with
  | nil => simp
  | cons c m ih =>
    by_cases h : n ≤ c.1
    · simp only [List.filter_cons, h, decide_true, if_true, Memory.get?_cons, ih]
      split_ifs <;> first | rfl | omega
    · simp only [List.filter_cons, h, decide_false, Bool.false_eq_true, if_false, Memory.get?_cons, ih]
      split_ifs <;> first | rfl | omega

theorem Memory.get?_filled (n : Nat) (f : Nat → Option Byte) (a : Nat) :
    Memory.get? ((List.range n).filterMap fun b => (f b).map fun v => (b, v)) a = if a < n then f a else none := by
  induction n with
  | zero => simp
  | succ n ih =>
    rw [List.range_succ, List.filterMap_append, Memory.get?_append, ih]
    rcases Nat.lt_trichotomy a n with h | h | h
    · have h' : ¬ n = a := by omega
      cases hf : f n <;> simp [hf, Memory.get?_cons, h, h', Nat.lt_succ_of_lt h]
    · subst h
      cases hf : f a <;> simp [hf, Memory.get?_cons]
    · have h' : ¬ n = a := by omega
      have h1 : ¬ a < n := by omega
      have h2 : ¬ a < n + 1 := by omega
      cases hf : f n <;> simp [hf, Memory.get?_cons, h', h1, h2]

/-- A read after a fill: below n what was asked for, from n on what stood before. -/
theorem Memory.get?_fill (m : Memory) (n : Nat) (f : Nat → Option Byte) (a : Nat) :
    (m.fill n f).get? a = if a < n then f a else m.get? a := by
  rw [Memory.fill, Memory.get?_append, Memory.get?_filled, Memory.get?_filter_ge]
  split <;> simp

/-- What a fill lists: an index below n with the content asked for, or what was listed before from n on. -/
theorem Memory.mem_fill {m : Memory} {n : Nat} {f : Nat → Option Byte} {c : Host.Cell} (h : c ∈ m.fill n f) :
    (c.1 < n ∧ f c.1 = some c.2) ∨ (n ≤ c.1 ∧ c ∈ m) := by
  rcases List.mem_append.1 h with h | h
  · obtain ⟨a, ha, hc⟩ := List.mem_filterMap.1 h
    obtain ⟨v, hv, rfl⟩ := Option.map_eq_some_iff.1 hc
    exact .inl ⟨List.mem_range.1 ha, hv⟩
  · obtain ⟨hc, hn⟩ := List.mem_filter.1 h
    exact .inr ⟨of_decide_eq_true hn, hc⟩

theorem Memory.wf_filled (n : Nat) (f : Nat → Option Byte) :
    Memory.wf ((List.range n).filterMap fun b => (f b).map fun v => (b, v)) := by
  refine List.Pairwise.filterMap _ (fun a b hab c hc d hd => ?_) (List.pairwise_lt_range (n := n))
  obtain ⟨v, -, rfl⟩ := Option.map_eq_some_iff.1 hc
  obtain ⟨w, -, rfl⟩ := Option.map_eq_some_iff.1 hd
  exact hab

/-- A fill keeps the canonical form. -/
theorem Memory.wf_fill {m : Memory} (hm : m.wf) (n : Nat) (f : Nat → Option Byte) : (m.fill n f).wf := by
  refine List.pairwise_append.2 ⟨Memory.wf_filled n f, hm.filter _, fun c hc d hd => ?_⟩
  obtain ⟨a, ha, hc⟩ := List.mem_filterMap.1 hc
  obtain ⟨v, -, rfl⟩ := Option.map_eq_some_iff.1 hc
  have hn : n ≤ d.1 := of_decide_eq_true (List.mem_filter.1 hd).2
  exact Nat.lt_of_lt_of_le (List.mem_range.1 ha) hn

/-- The memory made of a list of bytes holds each at its place in the list. -/
theorem Memory.get?_ofBytes (bytes : List Byte) (j : Nat) : (Memory.ofBytes bytes).get? j = bytes[j]? := by
  rw [Memory.ofBytes, Memory.get?_fill]
  split
  · rfl
  · rename_i h
    simp [List.getElem?_eq_none (Nat.le_of_not_lt h)]

/-- It is in canonical form. -/
theorem Memory.wf_ofBytes (bytes : List Byte) : (Memory.ofBytes bytes).wf :=
  Memory.wf_fill List.Pairwise.nil _ _

/-- It lists no index from its length on. -/
theorem Memory.lt_of_mem_ofBytes {bytes : List Byte} {c : Host.Cell} (h : c ∈ Memory.ofBytes bytes) :
    c.1 < bytes.length := by
  rcases Memory.mem_fill h with ⟨h, -⟩ | ⟨-, h⟩
  · exact h
  · simp at h

/-- The three memories of the machine right after reset are in canonical form. -/
theorem State.reset_memories_wf :
    Memory.wf State.reset.img ∧ Memory.wf State.reset.msg ∧ Memory.wf State.reset.out :=
  ⟨List.Pairwise.nil, List.Pairwise.nil, List.Pairwise.nil⟩

end Sys2Proof.Machine
end

