-- ==== Sys2Proof/Laws/State.lean ====
section
/-! SUPPORT. One lemma per field per update of State: what each named update makes of each field. -/

namespace Sys2Proof.Machine

variable (s : State)

/-! ### storeImage -/

@[simp] theorem State.storeImage_status (n : Nat) (image : Image) : (s.storeImage n image).status = s.status := rfl

@[simp] theorem State.storeImage_key (n : Nat) (image : Image) : (s.storeImage n image).key = s.key := rfl

@[simp] theorem State.storeImage_width (n : Nat) (image : Image) : (s.storeImage n image).width = s.width := rfl

@[simp] theorem State.storeImage_height (n : Nat) (image : Image) : (s.storeImage n image).height = s.height := rfl

@[simp] theorem State.storeImage_msglen (n : Nat) (image : Image) : (s.storeImage n image).msglen = s.msglen := rfl

@[simp] theorem State.storeImage_outlen (n : Nat) (image : Image) : (s.storeImage n image).outlen = s.outlen := rfl

@[simp] theorem State.storeImage_img (n : Nat) (image : Image) : (s.storeImage n image).img = s.img.fill n fun a => some (image a) := rfl

@[simp] theorem State.storeImage_msg (n : Nat) (image : Image) : (s.storeImage n image).msg = s.msg := rfl

@[simp] theorem State.storeImage_out (n : Nat) (image : Image) : (s.storeImage n image).out = s.out := rfl

@[simp] theorem State.storeImage_engine (n : Nat) (image : Image) : (s.storeImage n image).engine = s.engine := rfl

@[simp] theorem State.storeImage_busyLeft (n : Nat) (image : Image) : (s.storeImage n image).busyLeft = s.busyLeft := rfl

@[simp] theorem State.storeImage_params (n : Nat) (image : Image) : (s.storeImage n image).params = s.params := rfl

@[simp] theorem State.storeImage_port (n : Nat) (image : Image) : (s.storeImage n image).port = s.port := rfl

@[simp] theorem State.storeImage_reply (n : Nat) (image : Image) : (s.storeImage n image).reply = s.reply := rfl

@[simp] theorem State.storeImage_resets (n : Nat) (image : Image) : (s.storeImage n image).resets = s.resets := rfl

@[simp] theorem State.storeImage_outDraws (n : Nat) (image : Image) : (s.storeImage n image).outDraws = s.outDraws := rfl

@[simp] theorem State.storeImage_draws (n : Nat) (image : Image) : (s.storeImage n image).draws = s.draws := rfl

/-! ### storeSlots -/

@[simp] theorem State.storeSlots_status (k : Nat) (image : Image) : (s.storeSlots k image).status = s.status := rfl

@[simp] theorem State.storeSlots_key (k : Nat) (image : Image) : (s.storeSlots k image).key = s.key := rfl

@[simp] theorem State.storeSlots_width (k : Nat) (image : Image) : (s.storeSlots k image).width = s.width := rfl

@[simp] theorem State.storeSlots_height (k : Nat) (image : Image) : (s.storeSlots k image).height = s.height := rfl

@[simp] theorem State.storeSlots_msglen (k : Nat) (image : Image) : (s.storeSlots k image).msglen = s.msglen := rfl

@[simp] theorem State.storeSlots_outlen (k : Nat) (image : Image) : (s.storeSlots k image).outlen = s.outlen := rfl

@[simp] theorem State.storeSlots_img (k : Nat) (image : Image) : (s.storeSlots k image).img = s.img.fill (3 * k) fun a => if a % 3 = 0 then some (image a) else s.img.get? a := rfl

@[simp] theorem State.storeSlots_msg (k : Nat) (image : Image) : (s.storeSlots k image).msg = s.msg := rfl

@[simp] theorem State.storeSlots_out (k : Nat) (image : Image) : (s.storeSlots k image).out = s.out := rfl

@[simp] theorem State.storeSlots_engine (k : Nat) (image : Image) : (s.storeSlots k image).engine = s.engine := rfl

@[simp] theorem State.storeSlots_busyLeft (k : Nat) (image : Image) : (s.storeSlots k image).busyLeft = s.busyLeft := rfl

@[simp] theorem State.storeSlots_params (k : Nat) (image : Image) : (s.storeSlots k image).params = s.params := rfl

@[simp] theorem State.storeSlots_port (k : Nat) (image : Image) : (s.storeSlots k image).port = s.port := rfl

@[simp] theorem State.storeSlots_reply (k : Nat) (image : Image) : (s.storeSlots k image).reply = s.reply := rfl

@[simp] theorem State.storeSlots_resets (k : Nat) (image : Image) : (s.storeSlots k image).resets = s.resets := rfl

@[simp] theorem State.storeSlots_outDraws (k : Nat) (image : Image) : (s.storeSlots k image).outDraws = s.outDraws := rfl

@[simp] theorem State.storeSlots_draws (k : Nat) (image : Image) : (s.storeSlots k image).draws = s.draws := rfl

/-! ### storeText -/

@[simp] theorem State.storeText_status (bytes : List Byte) : (s.storeText bytes).status = s.status := rfl

@[simp] theorem State.storeText_key (bytes : List Byte) : (s.storeText bytes).key = s.key := rfl

@[simp] theorem State.storeText_width (bytes : List Byte) : (s.storeText bytes).width = s.width := rfl

@[simp] theorem State.storeText_height (bytes : List Byte) : (s.storeText bytes).height = s.height := rfl

@[simp] theorem State.storeText_msglen (bytes : List Byte) : (s.storeText bytes).msglen = s.msglen := rfl

@[simp] theorem State.storeText_outlen (bytes : List Byte) : (s.storeText bytes).outlen = BitVec.ofNat 32 bytes.length := rfl

@[simp] theorem State.storeText_img (bytes : List Byte) : (s.storeText bytes).img = s.img := rfl

@[simp] theorem State.storeText_msg (bytes : List Byte) : (s.storeText bytes).msg = s.msg := rfl

@[simp] theorem State.storeText_out (bytes : List Byte) : (s.storeText bytes).out = Memory.ofBytes bytes := rfl

@[simp] theorem State.storeText_engine (bytes : List Byte) : (s.storeText bytes).engine = s.engine := rfl

@[simp] theorem State.storeText_busyLeft (bytes : List Byte) : (s.storeText bytes).busyLeft = s.busyLeft := rfl

@[simp] theorem State.storeText_params (bytes : List Byte) : (s.storeText bytes).params = s.params := rfl

@[simp] theorem State.storeText_port (bytes : List Byte) : (s.storeText bytes).port = s.port := rfl

@[simp] theorem State.storeText_reply (bytes : List Byte) : (s.storeText bytes).reply = s.reply := rfl

@[simp] theorem State.storeText_resets (bytes : List Byte) : (s.storeText bytes).resets = s.resets := rfl

@[simp] theorem State.storeText_outDraws (bytes : List Byte) : (s.storeText bytes).outDraws = s.outDraws + 1 := rfl

@[simp] theorem State.storeText_draws (bytes : List Byte) : (s.storeText bytes).draws = s.draws := rfl

/-! ### accept -/

@[simp] theorem State.accept_status (w : Word) : (s.accept w).status = statusBusy := rfl

@[simp] theorem State.accept_key (w : Word) : (s.accept w).key = s.key := rfl

@[simp] theorem State.accept_width (w : Word) : (s.accept w).width = s.width := rfl

@[simp] theorem State.accept_height (w : Word) : (s.accept w).height = s.height := rfl

@[simp] theorem State.accept_msglen (w : Word) : (s.accept w).msglen = s.msglen := rfl

@[simp] theorem State.accept_outlen (w : Word) : (s.accept w).outlen = s.outlen := rfl

@[simp] theorem State.accept_img (w : Word) : (s.accept w).img = s.img := rfl

@[simp] theorem State.accept_msg (w : Word) : (s.accept w).msg = s.msg := rfl

@[simp] theorem State.accept_out (w : Word) : (s.accept w).out = s.out := rfl

@[simp] theorem State.accept_engine (w : Word) : (s.accept w).engine = some w := rfl

@[simp] theorem State.accept_busyLeft (w : Word) : (s.accept w).busyLeft = Config.busyTime s.draws := rfl

@[simp] theorem State.accept_params (w : Word) : (s.accept w).params = s.params := rfl

@[simp] theorem State.accept_port (w : Word) : (s.accept w).port = s.port := rfl

@[simp] theorem State.accept_reply (w : Word) : (s.accept w).reply = s.reply := rfl

@[simp] theorem State.accept_resets (w : Word) : (s.accept w).resets = s.resets := rfl

@[simp] theorem State.accept_outDraws (w : Word) : (s.accept w).outDraws = s.outDraws := rfl

@[simp] theorem State.accept_draws (w : Word) : (s.accept w).draws = s.draws + 1 := rfl

/-! ### complete -/

@[simp] theorem State.complete_status (e : ErrCode) (x : ExtractResult) : (s.complete e x).status = statusDone e x := rfl

@[simp] theorem State.complete_key (e : ErrCode) (x : ExtractResult) : (s.complete e x).key = s.key := rfl

@[simp] theorem State.complete_width (e : ErrCode) (x : ExtractResult) : (s.complete e x).width = s.width := rfl

@[simp] theorem State.complete_height (e : ErrCode) (x : ExtractResult) : (s.complete e x).height = s.height := rfl

@[simp] theorem State.complete_msglen (e : ErrCode) (x : ExtractResult) : (s.complete e x).msglen = s.msglen := rfl

@[simp] theorem State.complete_outlen (e : ErrCode) (x : ExtractResult) : (s.complete e x).outlen = s.outlen := rfl

@[simp] theorem State.complete_img (e : ErrCode) (x : ExtractResult) : (s.complete e x).img = s.img := rfl

@[simp] theorem State.complete_msg (e : ErrCode) (x : ExtractResult) : (s.complete e x).msg = s.msg := rfl

@[simp] theorem State.complete_out (e : ErrCode) (x : ExtractResult) : (s.complete e x).out = s.out := rfl

@[simp] theorem State.complete_engine (e : ErrCode) (x : ExtractResult) : (s.complete e x).engine = none := rfl

@[simp] theorem State.complete_busyLeft (e : ErrCode) (x : ExtractResult) : (s.complete e x).busyLeft = 0 := rfl

@[simp] theorem State.complete_params (e : ErrCode) (x : ExtractResult) : (s.complete e x).params = s.params := rfl

@[simp] theorem State.complete_port (e : ErrCode) (x : ExtractResult) : (s.complete e x).port = s.port := rfl

@[simp] theorem State.complete_reply (e : ErrCode) (x : ExtractResult) : (s.complete e x).reply = s.reply := rfl

@[simp] theorem State.complete_resets (e : ErrCode) (x : ExtractResult) : (s.complete e x).resets = s.resets := rfl

@[simp] theorem State.complete_outDraws (e : ErrCode) (x : ExtractResult) : (s.complete e x).outDraws = s.outDraws := rfl

@[simp] theorem State.complete_draws (e : ErrCode) (x : ExtractResult) : (s.complete e x).draws = s.draws := rfl

/-! ### raise -/

@[simp] theorem State.raise_status (e : ErrCode) : (s.raise e).status = statusDone e .none := rfl

@[simp] theorem State.raise_key (e : ErrCode) : (s.raise e).key = s.key := rfl

@[simp] theorem State.raise_width (e : ErrCode) : (s.raise e).width = s.width := rfl

@[simp] theorem State.raise_height (e : ErrCode) : (s.raise e).height = s.height := rfl

@[simp] theorem State.raise_msglen (e : ErrCode) : (s.raise e).msglen = s.msglen := rfl

@[simp] theorem State.raise_outlen (e : ErrCode) : (s.raise e).outlen = s.outlen := rfl

@[simp] theorem State.raise_img (e : ErrCode) : (s.raise e).img = s.img := rfl

@[simp] theorem State.raise_msg (e : ErrCode) : (s.raise e).msg = s.msg := rfl

@[simp] theorem State.raise_out (e : ErrCode) : (s.raise e).out = s.out := rfl

@[simp] theorem State.raise_engine (e : ErrCode) : (s.raise e).engine = none := rfl

@[simp] theorem State.raise_busyLeft (e : ErrCode) : (s.raise e).busyLeft = 0 := rfl

@[simp] theorem State.raise_params (e : ErrCode) : (s.raise e).params = s.params := rfl

@[simp] theorem State.raise_port (e : ErrCode) : (s.raise e).port = s.port := rfl

@[simp] theorem State.raise_reply (e : ErrCode) : (s.raise e).reply = s.reply := rfl

@[simp] theorem State.raise_resets (e : ErrCode) : (s.raise e).resets = s.resets := rfl

@[simp] theorem State.raise_outDraws (e : ErrCode) : (s.raise e).outDraws = s.outDraws := rfl

@[simp] theorem State.raise_draws (e : ErrCode) : (s.raise e).draws = s.draws := rfl

/-! ### takeReset -/

@[simp] theorem State.takeReset_status (rest : List HostEvent) : (s.takeReset rest).status = 0 := rfl

@[simp] theorem State.takeReset_key (rest : List HostEvent) : (s.takeReset rest).key = 0 := rfl

@[simp] theorem State.takeReset_width (rest : List HostEvent) : (s.takeReset rest).width = 0 := rfl

@[simp] theorem State.takeReset_height (rest : List HostEvent) : (s.takeReset rest).height = 0 := rfl

@[simp] theorem State.takeReset_msglen (rest : List HostEvent) : (s.takeReset rest).msglen = 0 := rfl

@[simp] theorem State.takeReset_outlen (rest : List HostEvent) : (s.takeReset rest).outlen = 0 := rfl

@[simp] theorem State.takeReset_img (rest : List HostEvent) : (s.takeReset rest).img = [] := rfl

@[simp] theorem State.takeReset_msg (rest : List HostEvent) : (s.takeReset rest).msg = [] := rfl

@[simp] theorem State.takeReset_out (rest : List HostEvent) : (s.takeReset rest).out = [] := rfl

@[simp] theorem State.takeReset_engine (rest : List HostEvent) : (s.takeReset rest).engine = none := rfl

@[simp] theorem State.takeReset_busyLeft (rest : List HostEvent) : (s.takeReset rest).busyLeft = 0 := rfl

@[simp] theorem State.takeReset_params (rest : List HostEvent) : (s.takeReset rest).params = s.params := rfl

@[simp] theorem State.takeReset_port (rest : List HostEvent) : (s.takeReset rest).port = rest := rfl

@[simp] theorem State.takeReset_reply (rest : List HostEvent) : (s.takeReset rest).reply = .nothing := rfl

@[simp] theorem State.takeReset_resets (rest : List HostEvent) : (s.takeReset rest).resets = s.resets + 1 := rfl

@[simp] theorem State.takeReset_outDraws (rest : List HostEvent) : (s.takeReset rest).outDraws = s.outDraws + 1 := rfl

@[simp] theorem State.takeReset_draws (rest : List HostEvent) : (s.takeReset rest).draws = s.draws := rfl

/-! ### deliver -/

@[simp] theorem State.deliver_status (rest : List HostEvent) : (s.deliver rest).status = s.status := rfl

@[simp] theorem State.deliver_key (rest : List HostEvent) : (s.deliver rest).key = s.key := rfl

@[simp] theorem State.deliver_width (rest : List HostEvent) : (s.deliver rest).width = s.width := rfl

@[simp] theorem State.deliver_height (rest : List HostEvent) : (s.deliver rest).height = s.height := rfl

@[simp] theorem State.deliver_msglen (rest : List HostEvent) : (s.deliver rest).msglen = s.msglen := rfl

@[simp] theorem State.deliver_outlen (rest : List HostEvent) : (s.deliver rest).outlen = s.outlen := rfl

@[simp] theorem State.deliver_img (rest : List HostEvent) : (s.deliver rest).img = s.img := rfl

@[simp] theorem State.deliver_msg (rest : List HostEvent) : (s.deliver rest).msg = s.msg := rfl

@[simp] theorem State.deliver_out (rest : List HostEvent) : (s.deliver rest).out = s.out := rfl

@[simp] theorem State.deliver_engine (rest : List HostEvent) : (s.deliver rest).engine = s.engine := rfl

@[simp] theorem State.deliver_busyLeft (rest : List HostEvent) : (s.deliver rest).busyLeft = s.busyLeft - 1 := rfl

@[simp] theorem State.deliver_params (rest : List HostEvent) : (s.deliver rest).params = s.params := rfl

@[simp] theorem State.deliver_port (rest : List HostEvent) : (s.deliver rest).port = rest := rfl

@[simp] theorem State.deliver_reply (rest : List HostEvent) : (s.deliver rest).reply = s.reply := rfl

@[simp] theorem State.deliver_resets (rest : List HostEvent) : (s.deliver rest).resets = s.resets := rfl

@[simp] theorem State.deliver_outDraws (rest : List HostEvent) : (s.deliver rest).outDraws = s.outDraws := rfl

@[simp] theorem State.deliver_draws (rest : List HostEvent) : (s.deliver rest).draws = s.draws := rfl

/-! ### holdCommand -/

@[simp] theorem State.holdCommand_status (w : Word) : (s.holdCommand w).status = statusBusy := rfl

@[simp] theorem State.holdCommand_key (w : Word) : (s.holdCommand w).key = s.key := rfl

@[simp] theorem State.holdCommand_width (w : Word) : (s.holdCommand w).width = s.width := rfl

@[simp] theorem State.holdCommand_height (w : Word) : (s.holdCommand w).height = s.height := rfl

@[simp] theorem State.holdCommand_msglen (w : Word) : (s.holdCommand w).msglen = s.msglen := rfl

@[simp] theorem State.holdCommand_outlen (w : Word) : (s.holdCommand w).outlen = s.outlen := rfl

@[simp] theorem State.holdCommand_img (w : Word) : (s.holdCommand w).img = s.img := rfl

@[simp] theorem State.holdCommand_msg (w : Word) : (s.holdCommand w).msg = s.msg := rfl

@[simp] theorem State.holdCommand_out (w : Word) : (s.holdCommand w).out = s.out := rfl

@[simp] theorem State.holdCommand_engine (w : Word) : (s.holdCommand w).engine = some w := rfl

@[simp] theorem State.holdCommand_busyLeft (w : Word) : (s.holdCommand w).busyLeft = 0 := rfl

@[simp] theorem State.holdCommand_params (w : Word) : (s.holdCommand w).params = s.params := rfl

@[simp] theorem State.holdCommand_port (w : Word) : (s.holdCommand w).port = s.port.dropWhile fun e => decide (e = .reset) := rfl

@[simp] theorem State.holdCommand_reply (w : Word) : (s.holdCommand w).reply = s.reply := rfl

@[simp] theorem State.holdCommand_resets (w : Word) : (s.holdCommand w).resets = s.resets := rfl

@[simp] theorem State.holdCommand_outDraws (w : Word) : (s.holdCommand w).outDraws = s.outDraws := rfl

@[simp] theorem State.holdCommand_draws (w : Word) : (s.holdCommand w).draws = s.draws := rfl

end Sys2Proof.Machine
end

