-- ==== Sys2Proof/Laws/Ops.lean ====
section
/-! SUPPORT. The laws of the shared operations: what each makes of the bytes of IMG, MSG and OUT, whose turn it is, and
when the operand check passes. -/

namespace Sys2Proof.Machine

variable (s : State)

/-! ### Bytes after a command's effect -/

theorem State.storeImage_imgByte (n : Nat) (image : Image) (a : Nat) :
    (s.storeImage n image).imgByte a = if a < n then image a else s.imgByte a := by
  simp only [State.imgByte, State.storeImage_img, State.storeImage_resets, Memory.get?_fill]
  split <;> rfl

theorem State.storeSlots_imgByte (k : Nat) (image : Image) (a : Nat) :
    (s.storeSlots k image).imgByte a = if a < 3 * k ∧ a % 3 = 0 then image a else s.imgByte a := by
  simp only [State.imgByte, State.storeSlots_img, State.storeSlots_resets, Memory.get?_fill]
  by_cases h : a < 3 * k <;> by_cases h' : a % 3 = 0 <;> simp [h, h']

theorem State.storeText_outByte (bytes : List Byte) (j : Nat) :
    (s.storeText bytes).outByte j = (bytes[j]?).getD (Config.freeOut (s.outDraws + 1) j) := by
  simp only [State.outByte, State.storeText_out, State.storeText_outDraws, Memory.get?_ofBytes]

@[simp] theorem State.storeImage_msgByte (n : Nat) (image : Image) (j : Nat) :
    (s.storeImage n image).msgByte j = s.msgByte j := rfl

@[simp] theorem State.storeImage_outByte (n : Nat) (image : Image) (j : Nat) :
    (s.storeImage n image).outByte j = s.outByte j := rfl

@[simp] theorem State.storeSlots_msgByte (k : Nat) (image : Image) (j : Nat) :
    (s.storeSlots k image).msgByte j = s.msgByte j := rfl

@[simp] theorem State.storeSlots_outByte (k : Nat) (image : Image) (j : Nat) :
    (s.storeSlots k image).outByte j = s.outByte j := rfl

@[simp] theorem State.storeText_imgByte (bytes : List Byte) (a : Nat) :
    (s.storeText bytes).imgByte a = s.imgByte a := rfl

@[simp] theorem State.storeText_msgByte (bytes : List Byte) (j : Nat) :
    (s.storeText bytes).msgByte j = s.msgByte j := rfl

/-! ### Bytes after the events -/

@[simp] theorem State.complete_imgByte (e : ErrCode) (x : ExtractResult) (a : Nat) :
    (s.complete e x).imgByte a = s.imgByte a := rfl

@[simp] theorem State.complete_msgByte (e : ErrCode) (x : ExtractResult) (j : Nat) :
    (s.complete e x).msgByte j = s.msgByte j := rfl

@[simp] theorem State.complete_outByte (e : ErrCode) (x : ExtractResult) (j : Nat) :
    (s.complete e x).outByte j = s.outByte j := rfl

@[simp] theorem State.raise_imgByte (e : ErrCode) (a : Nat) : (s.raise e).imgByte a = s.imgByte a := rfl

@[simp] theorem State.raise_msgByte (e : ErrCode) (j : Nat) : (s.raise e).msgByte j = s.msgByte j := rfl

@[simp] theorem State.raise_outByte (e : ErrCode) (j : Nat) : (s.raise e).outByte j = s.outByte j := rfl

@[simp] theorem State.accept_imgByte (w : Word) (a : Nat) : (s.accept w).imgByte a = s.imgByte a := rfl

@[simp] theorem State.accept_msgByte (w : Word) (j : Nat) : (s.accept w).msgByte j = s.msgByte j := rfl

@[simp] theorem State.accept_outByte (w : Word) (j : Nat) : (s.accept w).outByte j = s.outByte j := rfl

@[simp] theorem State.deliver_imgByte (rest : List HostEvent) (a : Nat) :
    (s.deliver rest).imgByte a = s.imgByte a := rfl

@[simp] theorem State.deliver_msgByte (rest : List HostEvent) (j : Nat) :
    (s.deliver rest).msgByte j = s.msgByte j := rfl

@[simp] theorem State.deliver_outByte (rest : List HostEvent) (j : Nat) :
    (s.deliver rest).outByte j = s.outByte j := rfl

/-- After a reset event every byte of IMG is a fresh free value (R28, R104). -/
@[simp] theorem State.takeReset_imgByte (rest : List HostEvent) (a : Nat) :
    (s.takeReset rest).imgByte a = Config.initImg (s.resets + 1) a := rfl

@[simp] theorem State.takeReset_msgByte (rest : List HostEvent) (j : Nat) :
    (s.takeReset rest).msgByte j = Config.initMsg (s.resets + 1) j := rfl

@[simp] theorem State.takeReset_outByte (rest : List HostEvent) (j : Nat) :
    (s.takeReset rest).outByte j = Config.freeOut (s.outDraws + 1) j := rfl

/-! ### Whose turn it is -/

theorem State.turn_eq_reset_iff (rest : List HostEvent) : s.turn = .reset rest ↔ s.port = .reset :: rest := by
  unfold State.turn
  cases hp : s.port with
  | nil => cases s.engine <;> simp
  | cons e r => cases e <;> cases s.engine <;> simp <;> split <;> simp

theorem State.turn_eq_complete_iff (w : Word) : s.turn = .complete w ↔ s.completes w := by
  unfold State.turn
  cases hp : s.port with
  | nil => cases he : s.engine <;> simp [State.completes, hp, he]
  | cons e r =>
    cases e <;> cases he : s.engine <;> simp [State.completes, hp, he] <;> split <;> simp_all

/-- With a host access next in the port: the engine completes first if its busy interval is over. -/
theorem State.turn_of_port {e : HostEvent} {rest : List HostEvent} (hp : s.port = e :: rest) (he : e ≠ .reset) :
    s.turn = match s.engine with
      | some w => if s.busyLeft = 0 then .complete w else .access e rest
      | none => .access e rest := by
  unfold State.turn
  rw [hp]
  cases e <;> first | rfl | exact absurd rfl he

theorem State.turn_eq_access_iff (e : HostEvent) (rest : List HostEvent) :
    s.turn = .access e rest ↔ s.hostMoves e rest := by
  constructor
  · intro h
    cases hp : s.port with
    | nil =>
      unfold State.turn at h
      rw [hp] at h
      cases he : s.engine <;> simp [he] at h
    | cons e' r =>
      by_cases hr : e' = .reset
      · subst hr
        rw [(s.turn_eq_reset_iff r).2 hp] at h
        cases h
      · rw [s.turn_of_port hp hr] at h
        cases he : s.engine with
        | none =>
          simp only [he] at h
          cases h
          exact ⟨hp, hr, .inl he⟩
        | some w =>
          simp only [he] at h
          split at h
          · cases h
          · cases h
            exact ⟨hp, hr, .inr ‹_›⟩
  · rintro ⟨hp, hr, h⟩
    rw [s.turn_of_port hp hr]
    cases he : s.engine with
    | none => rfl
    | some w => simp [h.resolve_left (by simp [he])]

theorem State.turn_eq_idle_iff : s.turn = .idle ↔ s.port = [] ∧ s.engine = none := by
  unfold State.turn
  cases hp : s.port with
  | nil => cases he : s.engine <;> simp
  | cons e r => cases e <;> cases he : s.engine <;> simp <;> split <;> simp

/-! ### The operand check -/

theorem State.badDim_eq_false_iff : s.badDim = false ↔ s.validDims := by
  simp only [State.badDim, State.validDims, Bool.or_eq_false_iff, decide_eq_false_iff_not]
  omega

theorem State.badLen_eq_false_iff : s.badLen = false ↔ s.mlen ≤ s.params.msgmax := by
  simp only [State.badLen, decide_eq_false_iff_not]
  omega

theorem State.overCapacity_eq_false_iff : s.overCapacity = false ↔ s.streamBits ≤ s.pixels := by
  simp only [State.overCapacity, decide_eq_false_iff_not]
  omega

/-- The check passes exactly when the dimensions are valid and, for a command that runs embed, the message fits (R93). -/
theorem State.operandError_eq_none_iff (b : Bool) :
    s.operandError b = none ↔ s.validDims ∧ (b = true → s.embedFits) := by
  rw [← State.badDim_eq_false_iff, State.embedFits, ← State.badLen_eq_false_iff, ← State.overCapacity_eq_false_iff]
  unfold State.operandError
  cases s.badDim <;> cases b <;> cases s.badLen <;> cases s.overCapacity <;> simp

/-- What an error of the check says: R95's order. -/
theorem State.operandError_eq_some {b : Bool} {e : ErrCode} (h : s.operandError b = some e) :
    (¬ s.validDims ∧ e = .badDim) ∨
      (s.validDims ∧ b = true ∧ s.params.msgmax < s.mlen ∧ e = .badLen) ∨
      (s.validDims ∧ b = true ∧ s.mlen ≤ s.params.msgmax ∧ s.pixels < s.streamBits ∧ e = .capacityExceeded) := by
  rw [← State.badDim_eq_false_iff, ← State.badLen_eq_false_iff]
  have hl : s.badLen = true ↔ s.params.msgmax < s.mlen := by simp [State.badLen]
  have hc : s.overCapacity = true ↔ s.pixels < s.streamBits := by simp [State.overCapacity]
  rw [← hl, ← hc]
  unfold State.operandError at h
  revert h
  cases s.badDim <;> cases b <;> cases s.badLen <;> cases s.overCapacity <;> simp <;> exact fun h => h.symm

/-! ### The fields of STATUS -/

@[simp] theorem busyBit_statusBusy : busyBit statusBusy = true := by decide

@[simp] theorem busyBit_statusDone (e : ErrCode) (x : ExtractResult) : busyBit (statusDone e x) = false := by
  cases e <;> cases x <;> decide

@[simp] theorem doneBit_statusDone (e : ErrCode) (x : ExtractResult) : doneBit (statusDone e x) = true := by
  cases e <;> cases x <;> decide

@[simp] theorem errField_statusDone (e : ErrCode) (x : ExtractResult) :
    errField (statusDone e x) = errNumber e := by
  cases e <;> cases x <;> decide

@[simp] theorem xresField_statusDone (e : ErrCode) (x : ExtractResult) :
    xresField (statusDone e x) = xresNumber x := by
  cases e <;> cases x <;> decide

end Sys2Proof.Machine
end

