-- ==== Sys2Proof/Laws/Exec.lean ====
section
/-! SUPPORT. What the completion of a command can be, said once: an error that changes STATUS only, or the command's own
effect. -/

namespace Sys2Proof.Machine

/-- The state a command's own effect leaves, when its operand check passes. -/
def commandEffect (i : Instr) (s : State) : State :=
  match i with
  | .enc => (s.storeImage s.samples (encImg s.key s.imgByte)).complete .ok .none
  | .dec => (s.storeImage s.samples (decImg s.key s.imgByte)).complete .ok .none
  | .flip => (s.storeImage s.samples (flipImg s.pixels s.imgByte)).complete .ok .none
  | .embed =>
    (s.storeSlots s.streamBits (embedImg s.payloadBits s.msgByte s.imgByte)).complete .ok .none
  | .extract => s.finishExtract s.pixels s.imgByte
  | .wpipe stego => (s.storeImage s.samples (writeStages s stego)).complete .ok .none
  | .rpipe true => (s.storeImage s.samples (readStages s)).finishExtract s.pixels (readStages s)
  | .rpipe false => (s.storeImage s.samples (readStages s)).complete .ok .none

/-- Every command answers a next state: the first error that applies, raised, or else its effect. -/
theorem exec_eq (i : Instr) (s : State) :
    exec i s = .next (match s.operandError (runsEmbed i) with
      | some e => s.raise e
      | none => commandEffect i s) := by
  cases i with
  | enc => simp only [exec, execEnc, runsEmbed, commandEffect]; cases s.operandError false <;> rfl
  | dec => simp only [exec, execDec, runsEmbed, commandEffect]; cases s.operandError false <;> rfl
  | flip => simp only [exec, execFlip, runsEmbed, commandEffect]; cases s.operandError false <;> rfl
  | embed => simp only [exec, execEmbed, runsEmbed, commandEffect]; cases s.operandError true <;> rfl
  | extract => simp only [exec, execExtract, runsEmbed, commandEffect]; cases s.operandError false <;> rfl
  | wpipe stego => simp only [exec, execWpipe, runsEmbed, commandEffect]; cases s.operandError stego <;> rfl
  | rpipe stego =>
    cases stego <;> simp only [exec, execRpipe, runsEmbed] <;> cases s.operandError false <;> rfl

/-- A command whose operand check passes has its effect. -/
theorem exec_of_valid (i : Instr) {s : State} (hd : s.validDims) (he : runsEmbed i = true → s.embedFits) :
    exec i s = .next (commandEffect i s) := by
  rw [exec_eq, (s.operandError_eq_none_iff _).2 ⟨hd, he⟩]

/-- A command whose operand check fails raises that error. -/
theorem exec_of_error (i : Instr) {s : State} {e : ErrCode} (h : s.operandError (runsEmbed i) = some e) :
    exec i s = .next (s.raise e) := by
  rw [exec_eq, h]

/-- What a next state of exec can be. -/
theorem exec_cases {i : Instr} {s t : State} (h : exec i s = .next t) :
    (∃ e, s.operandError (runsEmbed i) = some e ∧ t = s.raise e) ∨
      (s.validDims ∧ (runsEmbed i = true → s.embedFits) ∧ t = commandEffect i s) := by
  rw [exec_eq] at h
  cases ho : s.operandError (runsEmbed i) with
  | some e =>
    simp only [ho] at h
    cases h
    exact .inl ⟨e, rfl, rfl⟩
  | none =>
    simp only [ho] at h
    cases h
    obtain ⟨hd, he⟩ := (s.operandError_eq_none_iff _).1 ho
    exact .inr ⟨hd, he, rfl⟩

/-! ### The end of a command that ran extract -/

section
variable (s : State) (n : Nat) (image : Image)

@[simp] theorem State.finishExtract_status :
    (s.finishExtract n image).status = statusDone .ok (extractImg n image).1 := rfl

@[simp] theorem State.finishExtract_outlen :
    (s.finishExtract n image).outlen = BitVec.ofNat 32 (extractImg n image).2.length := rfl

@[simp] theorem State.finishExtract_engine : (s.finishExtract n image).engine = none := rfl

@[simp] theorem State.finishExtract_imgByte (a : Nat) : (s.finishExtract n image).imgByte a = s.imgByte a := rfl

@[simp] theorem State.finishExtract_msgByte (j : Nat) : (s.finishExtract n image).msgByte j = s.msgByte j := rfl

theorem State.finishExtract_outByte (j : Nat) :
    (s.finishExtract n image).outByte j =
      ((extractImg n image).2[j]?).getD (Config.freeOut (s.outDraws + 1) j) :=
  s.storeText_outByte _ _

end

/-! ### What every command leaves alone -/

/-- A command's effect leaves the inputs and what it has no part in alone, and the engine idle. -/
theorem commandEffect_frame (i : Instr) (s : State) :
    SameInputs s (commandEffect i s) ∧ SameSurroundings s (commandEffect i s) ∧
      (commandEffect i s).engine = none ∧ (commandEffect i s).busyLeft = 0 := by
  cases i with
  | rpipe stego =>
    cases stego <;>
      exact ⟨⟨rfl, rfl, rfl, rfl, fun _ => rfl⟩, ⟨rfl, rfl, rfl, rfl, rfl⟩, rfl, rfl⟩
  | _ => exact ⟨⟨rfl, rfl, rfl, rfl, fun _ => rfl⟩, ⟨rfl, rfl, rfl, rfl, rfl⟩, rfl, rfl⟩

/-- A command that runs no extract leaves OUT and OUTLEN alone. -/
theorem commandEffect_sameText {i : Instr} (h : runsExtract i = false) (s : State) :
    SameText s (commandEffect i s) := by
  cases i with
  | extract => cases h
  | rpipe stego =>
    cases stego
    · exact ⟨rfl, fun _ => rfl⟩
    · cases h
  | _ => exact ⟨rfl, fun _ => rfl⟩

/-- An error changes STATUS only. -/
theorem raise_onlyStatus (s : State) (e : ErrCode) : OnlyStatus (statusDone e .none) s (s.raise e) :=
  ⟨rfl, rfl, ⟨rfl, rfl, rfl, rfl, fun _ => rfl⟩, fun _ => rfl, ⟨rfl, fun _ => rfl⟩, rfl, rfl, rfl, rfl, rfl⟩

end Sys2Proof.Machine
end

