-- ==== Sys2Proof/Laws/HostPort.lean ====
section
/-! SUPPORT. The laws of the host port: what each access does to the block, while BUSY = 0 and while BUSY = 1. -/

namespace Sys2Proof.Machine

variable (s : State)

/-- The host's side of the state with new values, and the block as it was. -/
def State.withHostSide (busyLeft : Nat) (port : List HostEvent) (reply : Reply) (draws : Nat) : State :=
  { s with busyLeft := busyLeft, port := port, reply := reply, draws := draws }

/-- Changing the host's side changes nothing of the block. -/
theorem State.withHostSide_sameBlock (b : Nat) (p : List HostEvent) (r : Reply) (d : Nat) :
    SameBlock s (s.withHostSide b p r d) :=
  ⟨rfl, rfl, ⟨rfl, rfl, rfl, rfl, fun _ => rfl⟩, fun _ => rfl, ⟨rfl, fun _ => rfl⟩, rfl⟩

@[simp] theorem State.deliver_busy (rest : List HostEvent) : (s.deliver rest).busy = s.busy := rfl

@[simp] theorem State.access_reply (e : HostEvent) (rest : List HostEvent) :
    (s.access e rest).reply = s.answer e := rfl

/-- What each kind of access leaves in the block: reads and polls nothing, writes what csrWrite and byteWrite say. -/
theorem State.access_eq (e : HostEvent) (rest : List HostEvent) :
    s.access e rest = { (s.deliver (s.afterEvent e rest)).effect e with reply := s.answer e } := rfl

/-- An access without effect moves the host's side only. -/
theorem State.access_of_noEffect {e : HostEvent} (rest : List HostEvent)
    (h : ∀ r, (s.deliver r).effect e = s.deliver r) :
    s.access e rest = s.withHostSide (s.busyLeft - 1) (s.afterEvent e rest) (s.answer e) s.draws := by
  rw [State.access_eq, h]
  rfl

/-- While BUSY = 1 a write to the CSR space is dropped (R40). -/
theorem State.csrWrite_of_busy (h : s.busy = true) (n : Nat) (w : Word) : s.csrWrite n w = s := by
  simp [State.csrWrite, h]

/-- While BUSY = 1 a write to a memory is dropped (R40). -/
theorem State.byteWrite_of_busy (h : s.busy = true) (space : Space) (i : Nat) (v : Byte) :
    s.byteWrite space i v = s := by
  simp [State.byteWrite, h]

/-- While BUSY = 1 no access changes the block (R40): only the host's side of the state moves. -/
theorem State.access_of_busy (h : s.busy = true) (e : HostEvent) (rest : List HostEvent) :
    ∃ d, s.access e rest = s.withHostSide (s.busyLeft - 1) (s.afterEvent e rest) (s.answer e) d := by
  have hb : (s.deliver (s.afterEvent e rest)).busy = true := h
  cases e with
  | writeCsr n w => exact ⟨s.draws, by rw [State.access_eq, State.effect, State.csrWrite_of_busy _ hb]; rfl⟩
  | writeByte space i v => exact ⟨s.draws, by rw [State.access_eq, State.effect, State.byteWrite_of_busy _ hb]; rfl⟩
  | readByte space i =>
    refine ⟨s.draws + 1, ?_⟩
    rw [State.access_eq, State.effect, State.countBusyRead, if_pos hb]
    rfl
  | _ => exact ⟨s.draws, rfl⟩

/-- What one access can do to the fields of the block: a write to CMD while BUSY = 0 is the accept event, a write to a register or
to a memory changes that register or that byte, and everything else changes nothing. -/
theorem State.access_cases (e : HostEvent) (rest : List HostEvent) :
    (∃ d, s.access e rest = s.withHostSide (s.busyLeft - 1) (s.afterEvent e rest) (s.answer e) d) ∨
      (s.busy = false ∧ ∃ w, e = .writeCsr 0 w ∧
        s.access e rest = { (s.deliver rest).accept w with reply := .nothing }) ∨
      (s.busy = false ∧ ∃ n w, e = .writeCsr n w ∧ 2 ≤ n ∧ n ≤ 5 ∧
        s.access e rest = { (s.deliver rest).csrWrite n w with reply := .nothing }) ∨
      (s.busy = false ∧ ∃ i v, e = .writeByte .img i v ∧ i < 3 * s.params.maxpix ∧
        s.access e rest = { s.deliver rest with img := s.img.write i v, reply := .nothing }) ∨
      (s.busy = false ∧ ∃ j v, e = .writeByte .msg j v ∧ j < s.params.msgmax ∧
        s.access e rest = { s.deliver rest with msg := s.msg.write j v, reply := .nothing }) := by
  by_cases hb : s.busy = true
  · exact .inl (s.access_of_busy hb e rest)
  · have hb : s.busy = false := by simpa using hb
    have hd : ∀ r, (s.deliver r).busy = false := fun _ => hb
    cases e with
    | writeCsr n w =>
      have ha : s.afterEvent (.writeCsr n w) rest = rest := by simp [State.afterEvent]
      rcases n with _ | _ | _ | _ | _ | _ | n
      · refine .inr (.inl ⟨hb, w, rfl, ?_⟩)
        simp [State.access_eq, ha, State.effect, State.csrWrite, hd, State.answer]
      · exact .inl ⟨s.draws, s.access_of_noEffect rest fun r => by simp [State.effect, State.csrWrite, hd]⟩
      · exact .inr (.inr (.inl ⟨hb, 2, w, rfl, by omega, by omega, by rw [State.access_eq, ha]; rfl⟩))
      · exact .inr (.inr (.inl ⟨hb, 3, w, rfl, by omega, by omega, by rw [State.access_eq, ha]; rfl⟩))
      · exact .inr (.inr (.inl ⟨hb, 4, w, rfl, by omega, by omega, by rw [State.access_eq, ha]; rfl⟩))
      · exact .inr (.inr (.inl ⟨hb, 5, w, rfl, by omega, by omega, by rw [State.access_eq, ha]; rfl⟩))
      · exact .inl ⟨s.draws, s.access_of_noEffect rest fun r => by simp [State.effect, State.csrWrite, hd]⟩
    | writeByte space i v =>
      have ha : s.afterEvent (.writeByte space i v) rest = rest := by simp [State.afterEvent]
      by_cases hi : i < s.spaceSize space
      · have hi' : ∀ r, i < (s.deliver r).spaceSize space := fun _ => hi
        cases space with
        | img =>
          refine .inr (.inr (.inr (.inl ⟨hb, i, v, rfl, hi, ?_⟩)))
          simp [State.access_eq, ha, State.effect, State.byteWrite, hd, hi', State.answer]
        | msg =>
          refine .inr (.inr (.inr (.inr ⟨hb, i, v, rfl, hi, ?_⟩)))
          simp [State.access_eq, ha, State.effect, State.byteWrite, hd, hi', State.answer]
        | out =>
          exact .inl ⟨s.draws, s.access_of_noEffect rest fun r => by simp [State.effect, State.byteWrite, hd, hi']⟩
      · have hi' : ∀ r, ¬ i < (s.deliver r).spaceSize space := fun _ => hi
        exact .inl ⟨s.draws, s.access_of_noEffect rest fun r => by simp [State.effect, State.byteWrite, hd, hi']⟩
    | readByte space i =>
      exact .inl ⟨s.draws, s.access_of_noEffect rest fun r => by simp [State.effect, State.countBusyRead, hd]⟩
    | _ => exact .inl ⟨s.draws, rfl⟩

end Sys2Proof.Machine
end

