-- ==== Sys2Proof/Laws/PerInstr.lean ====
section
/-! SUPPORT. Per-instruction families: for every command, what its encoded word is. -/

namespace Sys2Proof.Laws

/-- The encoded word of a command is legal (R54) and has no reserved bit set (R53). -/
def EncodedLegal.Statement (i : Instr) : Prop := legalWord (encode i) = true ∧ reservedField (encode i) = 0

theorem EncodedLegal.enc : EncodedLegal.Statement .enc := by unfold EncodedLegal.Statement; decide

theorem EncodedLegal.dec : EncodedLegal.Statement .dec := by unfold EncodedLegal.Statement; decide

theorem EncodedLegal.flip : EncodedLegal.Statement .flip := by unfold EncodedLegal.Statement; decide

theorem EncodedLegal.embed : EncodedLegal.Statement .embed := by unfold EncodedLegal.Statement; decide

theorem EncodedLegal.extract : EncodedLegal.Statement .extract := by unfold EncodedLegal.Statement; decide

theorem EncodedLegal.wpipe (stego : Bool) : EncodedLegal.Statement (.wpipe stego) := by
  unfold EncodedLegal.Statement
  cases stego <;> decide

theorem EncodedLegal.rpipe (stego : Bool) : EncodedLegal.Statement (.rpipe stego) := by
  unfold EncodedLegal.Statement
  cases stego <;> decide

end Sys2Proof.Laws
end

