-- ==== Sys2Proof/Laws/Step.lean ====
section
/-! SUPPORT. What one step of the machine can be, said once. -/

namespace Sys2Proof.Machine

/-- Every step is a reset event, the completion of a command, the completion of an illegal word, a host access, or a wait. -/
theorem step_cases {s t : State} (h : step s = .next t) :
    (∃ rest, s.port = .reset :: rest ∧ t = s.takeReset rest) ∨
      (∃ w i, s.completes w ∧ decode w = .ok i ∧ exec i s = .next t) ∨
      (∃ w e, s.completes w ∧ decode w = .error e ∧ t = s.raise .illegalCmd) ∨
      (∃ e rest, s.hostMoves e rest ∧ t = s.access e rest) ∨
      (s.port = [] ∧ s.engine = none ∧ t = s) := by
  unfold step at h
  cases ht : s.turn with
  | reset rest =>
    simp only [ht] at h
    cases h
    exact .inl ⟨rest, (s.turn_eq_reset_iff rest).1 ht, rfl⟩
  | complete w =>
    have hc := (s.turn_eq_complete_iff w).1 ht
    simp only [ht] at h
    cases hd : decode w with
    | ok i =>
      simp only [hd] at h
      exact .inr (.inl ⟨w, i, hc, hd, h⟩)
    | error e =>
      simp only [hd] at h
      cases h
      exact .inr (.inr (.inl ⟨w, e, hc, hd, rfl⟩))
  | access e rest =>
    simp only [ht] at h
    cases h
    exact .inr (.inr (.inr (.inl ⟨e, rest, (s.turn_eq_access_iff e rest).1 ht, rfl⟩)))
  | idle =>
    simp only [ht] at h
    cases h
    obtain ⟨hp, he⟩ := s.turn_eq_idle_iff.1 ht
    exact .inr (.inr (.inr (.inr ⟨hp, he, rfl⟩)))

/-- A reset event is taken. -/
theorem step_of_reset {s : State} {rest : List HostEvent} (h : s.port = .reset :: rest) :
    step s = .next (s.takeReset rest) := by
  simp only [step, (s.turn_eq_reset_iff rest).2 h]

/-- The next host access is made. -/
theorem step_of_hostMoves {s : State} {e : HostEvent} {rest : List HostEvent} (h : s.hostMoves e rest) :
    step s = .next (s.access e rest) := by
  simp only [step, (s.turn_eq_access_iff e rest).2 h]

/-- A due command word completes: its command if it has one, else the error ILLEGAL_CMD. -/
theorem step_of_completes {s : State} {w : Word} (h : s.completes w) :
    step s = match decode w with
      | .ok i => exec i s
      | .error _ => .next (s.raise .illegalCmd) := by
  cases hd : decode w <;> simp only [step, (s.turn_eq_complete_iff w).2 h, hd]

end Sys2Proof.Machine
end

