-- ==== Sys2Proof/Tests/Slice0.lean ====
section
/-! SUPPORT. Tests of the model on the examples and vectors of spec/95_test_vectors.md, the ill-formed terms each check
refuses, and a witness for the hypotheses of each statement. Every expected value is the spec's. -/

namespace Sys2Proof.Tests

open Sys2Proof.Machine

/-! ### Well-formedness -/

/-- R54: one illegal word for each clause (V-ER-1, V-ER-2, V-ER-4, V-ER-6, V-ER-7). -/
theorem test_illegal_words_are_not_legal :
    legalWord 0x00000000 = false ∧ legalWord 0x00000008 = false ∧ legalWord 0x00000101 = false ∧
      legalWord 0x00000206 = false ∧ legalWord 0x80000001 = false ∧ legalWord 0x00000107 = true := by decide

/-- R5: one ill-formed parameter pair for each bound, and the bounds themselves. -/
theorem test_illegal_parameters :
    Params.legal ⟨0, 8⟩ = false ∧ Params.legal ⟨4294836226, 8⟩ = false ∧ Params.legal ⟨1, 536870912⟩ = false ∧
      Params.legal ⟨1, 0⟩ = true ∧ Params.legal ⟨4294836225, 536870911⟩ = true := by decide

/-- R5: OUTSZ. -/
theorem test_outsz : Params.outsz ⟨31, 8⟩ = 0 ∧ Params.outsz ⟨40, 8⟩ = 1 ∧ Params.outsz ⟨80, 8⟩ = 6 := by decide

/-! ### Decoding: the words of R51, written out field by field (RSV, S, OPC) from R50 -/

theorem test_decode_enc : decode ((0#23) ++ (0#1) ++ (0b00000001#8)) = .ok .enc := rfl

theorem test_decode_dec : decode ((0#23) ++ (0#1) ++ (0b00000010#8)) = .ok .dec := rfl

theorem test_decode_flip : decode ((0#23) ++ (0#1) ++ (0b00000011#8)) = .ok .flip := rfl

theorem test_decode_embed : decode ((0#23) ++ (0#1) ++ (0b00000100#8)) = .ok .embed := rfl

theorem test_decode_extract : decode ((0#23) ++ (0#1) ++ (0b00000101#8)) = .ok .extract := rfl

theorem test_decode_wpipe : decode ((0#23) ++ (0#1) ++ (0b00000110#8)) = .ok (.wpipe false) ∧
    decode ((0#23) ++ (1#1) ++ (0b00000110#8)) = .ok (.wpipe true) := ⟨rfl, rfl⟩

theorem test_decode_rpipe : decode ((0#23) ++ (0#1) ++ (0b00000111#8)) = .ok (.rpipe false) ∧
    decode ((0#23) ++ (1#1) ++ (0b00000111#8)) = .ok (.rpipe true) := ⟨rfl, rfl⟩

/-- V-ER-1 to V-ER-7: the illegal words, by reason. -/
theorem test_decode_illegal :
    decode 0x00000000 = .error .unknownOpcode ∧ decode 0x00000008 = .error .unknownOpcode ∧
      decode 0x000000FF = .error .unknownOpcode ∧ decode 0x00000101 = .error .stegoNotAllowed ∧
      decode 0x00000105 = .error .stegoNotAllowed ∧ decode 0x00000206 = .error .reservedBitSet ∧
      decode 0x80000001 = .error .reservedBitSet := ⟨rfl, rfl, rfl, rfl, rfl, rfl, rfl⟩

theorem test_decodeTableWord : decodeTableWord 32 0x106 = some (.wpipe true) ∧ decodeTableWord 32 0x101 = none ∧
    decodeTableWord 8 0x102 = some .dec ∧ decodeTableWord 64 0x100000001 = none := ⟨rfl, rfl, rfl, rfl⟩

/-! ### The state the tests run on -/

/-- An idle block with MAXPIX = 100 and MSGMAX = 8 whose host has loaded an image of w × h, a message and a key. -/
def block (w h : Dim) (key : Byte) (message image : List Byte) : State :=
  { State.reset with
    params := ⟨100, 8⟩
    width := w
    height := h
    key := key
    msglen := BitVec.ofNat 32 message.length
    msg := Memory.ofBytes message
    img := Memory.ofBytes image }

/-- The next state of an outcome. -/
def after (o : Host.Outcome State Fault Refusal) : State :=
  match o with
  | .next t => t
  | .fault _ => State.reset
  | .refused _ => State.reset

/-- The first n bytes of the image. -/
def bytes (s : State) (n : Nat) : List Byte := (List.range n).map s.imgByte

/-- An image of n equal pixels. -/
def uniform (n : Nat) (pixel : List Byte) : List Byte := (List.replicate n pixel).flatten

/-- An image whose slots hold the given bits: channel 0 is the bit, the other channels are 0. -/
def slots (bits : List Byte) : List Byte := bits.flatMap fun b => [b, 0, 0]

/-- The 32 header slots of a payload length below 256, most significant first (R35). -/
def header (l : Nat) : List Byte :=
  List.replicate 24 0 ++ (List.range 8).map fun i => BitVec.ofNat 8 (l / 2 ^ (7 - i) % 2)

/-- A block with an image of one row whose slots hold the given header and payload bits. -/
def carrier (w : Dim) (l : Nat) (payload : List Byte) : State := block w 1 0 [] (slots (header l ++ payload))

/-- The host is about to make one access. -/
def about (e : HostEvent) (s : State) : State := { s with port := [e] }

/-- The engine holds ENC and one more host access falls into its busy interval. -/
def running (e : HostEvent) (s : State) : State := { s.holdCommand 0x001 with port := [e], busyLeft := 1 }

/-! ### The units -/

/-- V-CI-1 to V-CI-12. -/
theorem test_madd8 :
    madd8 0 0 false = 0 ∧ madd8 255 1 false = 0 ∧ madd8 0 1 true = 255 ∧ madd8 200 212 false = 156 ∧
      madd8 10 212 true = 54 ∧ madd8 128 128 false = 0 ∧ madd8 0 128 true = 128 ∧ madd8 255 255 false = 254 ∧
      madd8 255 255 true = 0 ∧ madd8 127 232 false = 103 ∧ madd8 103 232 true = 127 ∧ madd8 1 255 false = 0 := by
  decide

/-- The setlsb table of section 2.3 (90_conflicts.md C2 at 0 and 255). -/
theorem test_setLsb :
    [(0 : Byte), 1, 2, 127, 128, 254, 255].map (setLsb · false) = [0, 0, 2, 126, 128, 254, 254] ∧
      [(0 : Byte), 1, 2, 127, 128, 254, 255].map (setLsb · true) = [1, 1, 3, 127, 129, 255, 255] := by decide

/-- The payloads of V-EX-6 to V-EX-8 and V-EX-12 to V-EX-18. -/
theorem test_utf8 :
    utf8Valid [0xFF] = false ∧ utf8Valid [0x80] = false ∧ utf8Valid [0x00] = true ∧ utf8Valid [] = true ∧
      utf8Valid [0xC3, 0xA9] = true ∧ utf8Valid [0xC0, 0x80] = false ∧ utf8Valid [0xED, 0xA0, 0x80] = false ∧
      utf8Valid [0xE2, 0x82, 0xAC] = true ∧ utf8Valid [0xE2, 0x82] = false ∧
      utf8Valid [0xF0, 0x9F, 0x98, 0x80] = true ∧ utf8Valid [0xF4, 0x90, 0x80, 0x80] = false := by decide

/-- V-FL-7: in a 4 × 4 image pixel (1, 0), bytes 3 to 5, goes to pixel (2, 3), flat index 14. -/
theorem test_flipPixel : flipPixel 16 (pixelOf (addr 4 1 0 0)) = 14 ∧ addr 4 2 3 0 = 42 := by decide

/-! ### The commands -/

/-- V-CI-13: wraps at the top. -/
theorem test_enc :
    bytes (after (exec .enc (block 2 1 3 [] [0x00, 0x7F, 0x80, 0xFF, 0x01, 0xFE]))) 6 =
      [0x03, 0x82, 0x83, 0x02, 0x04, 0x01] := by decide

/-- V-CI-14: the bytes beyond the image stay; V-ER-16: without dimensions the command ends with BAD_DIM. -/
theorem test_enc_frame :
    bytes (after (exec .enc (block 1 1 1 [] [0x10, 0x20, 0x30, 0x40, 0x50, 0x60]))) 6 =
        [0x11, 0x21, 0x31, 0x40, 0x50, 0x60] ∧
      (after (exec .enc State.reset)).status = 0x022 := by decide

/-- V-CI-13: the way back. -/
theorem test_dec :
    bytes (after (exec .dec (block 2 1 3 [] [0x03, 0x82, 0x83, 0x02, 0x04, 0x01]))) 6 =
      [0x00, 0x7F, 0x80, 0xFF, 0x01, 0xFE] := by decide

/-- V-ER-12: N = 81 > 80 is BAD_DIM, N = 80 is not. -/
theorem test_dec_maxpix :
    (after (exec .dec { block 9 9 0 [] [] with params := ⟨80, 8⟩ })).status = 0x022 ∧
      (after (exec .dec { block 10 8 0 [] [] with params := ⟨80, 8⟩ })).status = 0x002 := by decide +kernel

/-- V-FL-1: pixels reversed, the bytes inside a pixel in order. -/
theorem test_flip :
    bytes (after (exec .flip (block 3 2 0 []
      [1, 2, 3, 4, 5, 6, 7, 8, 9, 10, 11, 12, 13, 14, 15, 16, 17, 18]))) 18 =
      [16, 17, 18, 13, 14, 15, 10, 11, 12, 7, 8, 9, 4, 5, 6, 1, 2, 3] := by decide +kernel

/-- V-EM-1 and E4: "A" in 40 pixels of (80, 11, 22), exactly the capacity. -/
theorem test_embed :
    bytes (after (exec .embed (block 8 5 0 [0x41] (uniform 40 [0x80, 0x11, 0x22])))) 120 =
      (List.range 40).flatMap fun i => [if i = 28 ∨ i = 33 ∨ i = 39 then 0x81 else 0x80, 0x11, 0x22] := by
  decide +kernel

/-- E4, V-EM-9, V-EM-7 and V-ER-14: one bit too long, no room for a header, too long for MSG. -/
theorem test_embed_errors :
    (after (exec .embed (block 13 3 0 [0x41] []))).status = 0x042 ∧
      (after (exec .embed (block 5 6 0 [] []))).status = 0x042 ∧
      (after (exec .embed { block 2 2 0 [] [] with msglen := 9 })).status = 0x032 ∧
      (after (exec .embed { block 0 2 0 [] [] with msglen := 0xFFFFFFFF })).status = 0x022 := by decide

/-- V-EX-1 (E6) and V-EX-9: "A", and "A" with four bits after it. -/
theorem test_extract :
    (after (exec .extract (carrier 40 8 [0, 1, 0, 0, 0, 0, 0, 1]))).status = 0x102 ∧
      (after (exec .extract (carrier 40 8 [0, 1, 0, 0, 0, 0, 0, 1]))).textBytes = [0x41] ∧
      (after (exec .extract (carrier 44 12 [0, 1, 0, 0, 0, 0, 0, 1, 1, 1, 1, 1]))).textBytes = [0x41] := by
  decide +kernel

/-- V-EX-2, V-EX-3, V-EX-5, V-EX-6, V-EX-10, V-EX-21: the absent outcomes, and the empty text. -/
theorem test_extract_absent :
    (after (exec .extract (carrier 40 0 [1, 1, 1, 1, 1, 1, 1, 1]))).status = 0x202 ∧
      (after (exec .extract (carrier 40 9 [0, 1, 0, 0, 0, 0, 0, 1]))).status = 0x202 ∧
      (after (exec .extract (carrier 39 8 [1, 1, 1, 1, 1, 1, 1]))).status = 0x202 ∧
      (after (exec .extract (carrier 40 8 [1, 1, 1, 1, 1, 1, 1, 1]))).status = 0x302 ∧
      (after (exec .extract (carrier 40 3 [1, 0, 1, 0, 0, 0, 0, 0]))).status = 0x102 ∧
      (after (exec .extract (carrier 40 3 [1, 0, 1, 0, 0, 0, 0, 0]))).outlen = 0 ∧
      (after (exec .extract (block 31 1 0 [] (uniform 31 [1, 0, 0])))).status = 0x202 := by decide +kernel

/-- V-PI-1. -/
theorem test_wpipe :
    bytes (after (exec (.wpipe false) (block 2 2 200 []
      [0x00, 0x01, 0x02, 0x64, 0x96, 0xC8, 0xFE, 0xFF, 0x00, 0x37, 0x38, 0x39]))) 12 =
      [0xFF, 0x00, 0x01, 0xC6, 0xC7, 0xC8, 0x2C, 0x5E, 0x90, 0xC8, 0xC9, 0xCA] := by decide

/-- E5: the first and the last four pixels after WPIPE.H of "secret" with key 1000. -/
theorem test_wpipe_hide :
    let t := after (exec (.wpipe true) (block 10 8 232 [0x73, 0x65, 0x63, 0x72, 0x65, 0x74]
      ((List.range 240).map fun a => BitVec.ofNat 8 (5 * a + 1))))
    bytes t 12 = [0x8A, 0x8F, 0x94, 0x7A, 0x80, 0x85, 0x6D, 0x71, 0x76, 0x5C, 0x62, 0x67] ∧
      (List.range 12).map (fun i => t.imgByte (228 + i)) =
        [0x16, 0x1B, 0x20, 0x06, 0x0C, 0x11, 0xF8, 0xFD, 0x02, 0xE8, 0xEE, 0xF3] := by decide +kernel

/-- V-PI-1: the way back. -/
theorem test_rpipe :
    bytes (after (exec (.rpipe false) (block 2 2 200 []
      [0xFF, 0x00, 0x01, 0xC6, 0xC7, 0xC8, 0x2C, 0x5E, 0x90, 0xC8, 0xC9, 0xCA]))) 12 =
      [0x00, 0x01, 0x02, 0x64, 0x96, 0xC8, 0xFE, 0xFF, 0x00, 0x37, 0x38, 0x39] := by decide

/-- V-PI-4 and V-ER-10: with fewer than 32 pixels the image is flipped and decrypted, and the outcome is ABSENT_RANGE. -/
theorem test_rpipe_show :
    let t := after (exec (.rpipe true) (block 2 1 1 [] [1, 2, 3, 4, 5, 6]))
    t.status = 0x202 ∧ t.outlen = 0 ∧ bytes t 6 = [3, 4, 5, 0, 1, 2] := by decide

/-! ### The step and the host port -/

/-- withFetchWord: the very next step completes the command (V-ER-8), or ends an illegal word with ILLEGAL_CMD (V-ER-11). -/
theorem test_withFetchWord :
    (after (step ((block 2 2 1 [] (uniform 4 [7, 7, 7])).withFetchWord 32 0x001))).status = 0x002 ∧
      (after (step ((block 2 2 1 [] (uniform 4 [7, 7, 7])).withFetchWord 32 0x001))).imgByte 0 = 8 ∧
      (after (step (State.reset.withFetchWord 32 0x000))).status = 0x012 := by decide

/-- V-CI-16 and V-ER-17: a field takes its bits, the bits above read 0. -/
theorem test_register_fields :
    ((after (step (about (.writeCsr 2 0x12345678) (block 0 0 0 [] [])))).csrRead 2) = 0x00000078 ∧
      ((after (step (about (.writeCsr 3 0x00010002) (block 0 0 0 [] [])))).csrRead 3) = 0x00000002 := by decide

/-- E1: the words of signed keys (R57, R61). -/
theorem test_scriptKey :
    scriptKey (-300) = .writeCsr 2 0xFFFFFED4 ∧ scriptKey (-1) = .writeCsr 2 0xFFFFFFFF ∧
      scriptKey 1000 = .writeCsr 2 0x000003E8 := by decide

/-- V-HZ-1: while BUSY = 1 STATUS reads 0x001 and CMD 0, and writes are dropped. -/
theorem test_busy :
    (after (step (running (.readCsr 1) (block 2 1 3 [] [])))).reply = .word 0x001 ∧
      (after (step (running (.readCsr 0) (block 2 1 3 [] [])))).reply = .word 0 ∧
      (after (step (running (.writeCsr 2 5) (block 2 1 3 [] [])))).key = 3 ∧
      (after (step (running (.writeCsr 0 0x003) (block 2 1 3 [] [])))).engine = some 0x001 ∧
      (after (step (running (.writeByte .msg 0 9) (block 2 1 3 [7] [])))).msgByte 0 = 7 := by decide

/-- V-HZ-2: the idle block's read-only and absent locations. -/
theorem test_idle :
    (after (step (about (.readCsr 7) (block 2 1 3 [] [])))).reply = .word 0 ∧
      (after (step (about (.writeCsr 1 0xFFFFFFFF) (block 2 1 3 [] [])))).status = 0 ∧
      (after (step (about (.writeCsr 6 5) (block 2 1 3 [] [])))).outlen = 0 ∧
      (after (step (about (.writeByte .out 0 1) (block 2 1 3 [] [])))).out = [] ∧
      (after (step (about (.readByte .img 300) (block 2 1 3 [] [])))).reply = .byte 0 := by decide

/-- A reset event clears the registers and abandons the command (R104, R105). -/
theorem test_reset_event :
    let t := after (step (about .reset ((block 2 1 3 [7] [1, 2, 3]).holdCommand 0x001)))
    t.status = 0 ∧ t.key = 0 ∧ t.width = 0 ∧ t.engine = none ∧ t.img = [] ∧ t.port = [] := by decide

/-! ### Witnesses: states that meet the hypotheses of the statements -/

/-- "A" in exactly its capacity, 32 + 8 × 1 = 8 × 5. -/
def full : State := block 8 5 212 [0x41] (uniform 40 [0x80, 0x11, 0x22])

/-- A block that recovered the text "A", with the host about to read it. -/
def recovered : State :=
  { block 8 5 0 [] [] with status := 0x102, outlen := 1, out := [(0, 0x41)], port := [.readByte .out 0] }

/-- validDims at its bounds: one pixel, and W × H = MAXPIX as a square and as a row. It is the hypothesis of EncAddsTheKey,
DecSubtractsTheKey, CipherRoundTrip, EncFlipsParityExactlyForOddKeys, FlipReflectsEveryPixel, FlipTwiceRestores,
ExtractReportsTheSlots, HeaderRangeIsChecked and ReadPipelineInClosedForm. -/
theorem witness_validDims :
    (block 1 1 0 [] []).validDims ∧ (block 10 10 0 [] []).validDims ∧ (block 100 1 0 [] []).validDims := by decide

/-- BadDimensionsStopEveryCommand: W = 0, H = 0, and W × H one above MAXPIX. -/
theorem witness_BadDimensionsStopEveryCommand :
    ¬ (block 0 5 0 [] []).validDims ∧ ¬ (block 5 0 0 [] []).validDims ∧ ¬ (block 101 1 0 [] []).validDims := by decide

/-- embedFits at its bounds: exactly the capacity, the empty message in 32 pixels, a message of MSGMAX bytes. With validDims
it is the hypothesis of EmbedWritesTheBitstream, EmbedIsIdempotent and WritePipelineInClosedForm. -/
theorem witness_embedFits :
    (full.validDims ∧ full.embedFits ∧ full.streamBits = full.pixels) ∧
      ((block 8 4 0 [] []).validDims ∧ (block 8 4 0 [] []).embedFits) ∧
      ((block 10 10 0 (List.replicate 8 0x41) []).validDims ∧ (block 10 10 0 (List.replicate 8 0x41) []).embedFits) := by
  decide

/-- TooLongMessageStopsEmbedding: MSGLEN one above MSGMAX, and the largest. -/
theorem witness_TooLongMessageStopsEmbedding :
    ({ full with msglen := 9 }.validDims ∧ { full with msglen := 9 }.params.msgmax < { full with msglen := 9 }.mlen) ∧
      { full with msglen := 0xFFFFFFFF }.params.msgmax < { full with msglen := 0xFFFFFFFF }.mlen := by decide

/-- CapacityIsTestedFirst: over capacity, exactly at it, and fewer than 32 pixels. -/
theorem witness_CapacityIsTestedFirst :
    ((block 13 3 0 [0x41] []).validDims ∧ (block 13 3 0 [0x41] []).mlen ≤ (block 13 3 0 [0x41] []).params.msgmax ∧
        (block 13 3 0 [0x41] []).w * (block 13 3 0 [0x41] []).h < 32 + 8 * (block 13 3 0 [0x41] []).mlen) ∧
      (full.validDims ∧ full.mlen ≤ full.params.msgmax ∧ 32 + 8 * full.mlen ≤ full.w * full.h) ∧
      ((block 31 1 0 [] []).validDims ∧ (block 31 1 0 [] []).mlen ≤ (block 31 1 0 [] []).params.msgmax ∧
        (block 31 1 0 [] []).w * (block 31 1 0 [] []).h < 32) := by decide

/-- PipelinesEqualSingleStages: a message that does not fit, too long for the image, or for MSG. -/
theorem witness_PipelinesEqualSingleStages :
    ((block 13 3 0 [0x41] []).validDims ∧ ¬ (block 13 3 0 [0x41] []).embedFits) ∧
      ({ full with msglen := 9 }.validDims ∧ ¬ { full with msglen := 9 }.embedFits) := by decide

/-- A held command is due: with an empty port, and with its busy interval over; StepRunsTheDecodedCommand,
EveryCompletionSetsDone, FirstErrorIsReported, StatusChangesOnlyByItsEvents. -/
theorem witness_completes :
    (full.holdCommand 0x004).completes 0x004 ∧ decode 0x004 = .ok .embed ∧
      { full.holdCommand 0x106 with port := [.wait] }.completes 0x106 ∧
      { full.holdCommand 0x001 with busyLeft := 3 }.completes 0x001 := by decide

/-- ErrorsChangeStatusOnly and FirstErrorIsReported: a completion with each of the four errors. -/
theorem witness_ErrorsChangeStatusOnly :
    (full.holdCommand 0x000).completes 0x000 ∧ (after (step (full.holdCommand 0x000))).status = 0x012 ∧
      (after (step ((block 0 5 0 [] []).holdCommand 0x003))).status = 0x022 ∧
      (after (step ({ full with msglen := 9 }.holdCommand 0x106))).status = 0x032 ∧
      (after (step ((block 13 3 0 [0x41] []).holdCommand 0x106))).status = 0x042 := by decide

/-- IllegalWordsCompleteWithIllegalCmd: an illegal word held, and one about to be written. -/
theorem witness_IllegalWordsCompleteWithIllegalCmd :
    (legalWord 0x206 = false ∧ (full.holdCommand 0x206).completes 0x206) ∧
      ((about (.writeCsr 0 0x206) full).busy = false ∧
        (about (.writeCsr 0 0x206) full).hostMoves (.writeCsr 0 0x206) []) := by decide

/-- AcceptedCommandCompletes: a command in its busy interval. -/
theorem witness_AcceptedCommandCompletes :
    (running .wait full).engine = some 0x001 ∧ (running .wait full).busy = true ∧
      HostEvent.reset ∉ (running .wait full).port := by decide

/-- IdleBlockStays. -/
theorem witness_IdleBlockStays : full.port = [] ∧ full.engine = none := by decide

/-- CsrReadReturnsTheRegister: every register number and the first absent one, idle and busy. -/
theorem witness_CsrReadReturnsTheRegister :
    ∀ n, n < 8 → (about (.readCsr n) full).hostMoves (.readCsr n) [] ∧
      (running (.readCsr n) full).hostMoves (.readCsr n) [] := by decide

/-- WriteToCmdIsTheAcceptEvent: idle and busy. -/
theorem witness_WriteToCmdIsTheAcceptEvent :
    (about (.readCsr 0) full).hostMoves (.readCsr 0) [] ∧
      ((about (.writeCsr 0 0x004) full).hostMoves (.writeCsr 0 0x004) [] ∧
        (about (.writeCsr 0 0x004) full).busy = false) ∧
      ((running (.writeCsr 0 0x004) full).hostMoves (.writeCsr 0 0x004) [] ∧
        (running (.writeCsr 0 0x004) full).busy = true) := by decide

/-- RegisterWriteTakesItsField: every register number from 1 on, and the first absent one. -/
theorem witness_RegisterWriteTakesItsField :
    ∀ n, n < 8 → n ≠ 0 → (about (.writeCsr n 0xFFFFFFFF) full).hostMoves (.writeCsr n 0xFFFFFFFF) [] ∧
      (about (.writeCsr n 0xFFFFFFFF) full).busy = false := by decide

/-- UndefinedRegisterNumbersDoNothing: number 7, read and written, idle and busy. -/
theorem witness_UndefinedRegisterNumbersDoNothing :
    (about (.readCsr 7) full).hostMoves (.readCsr 7) [] ∧ (running (.writeCsr 7 5) full).hostMoves (.writeCsr 7 5) [] := by
  decide

/-- MemoryReadReturnsTheByte and MemoryWriteChangesOneByte: each space at its last index and at the first one out of
range (with MAXPIX = 100 and MSGMAX = 8 the sizes are 300, 8 and 8). -/
theorem witness_memory_access :
    ∀ c ∈ [(Space.img, 299), (.img, 300), (.msg, 7), (.msg, 8), (.out, 7), (.out, 8)],
      ((about (.readByte c.1 c.2) full).hostMoves (.readByte c.1 c.2) [] ∧
          (about (.readByte c.1 c.2) full).busy = false) ∧
        (about (.writeByte c.1 c.2 5) full).hostMoves (.writeByte c.1 c.2 5) [] ∧
          (about (.writeByte c.1 c.2 5) full).busy = false := by decide

/-- MemoryWriteChangesOneByte: the written byte at the last index, and nothing out of range. -/
theorem witness_MemoryWriteChangesOneByte :
    (after (step (about (.writeByte .img 299 5) (block 1 1 0 [] [])))).img = [(299, 5)] ∧
      (after (step (about (.writeByte .img 300 5) (block 1 1 0 [] [])))).img = [] ∧
      (after (step (about (.writeByte .msg 7 5) (block 1 1 0 [] [])))).msg = [(7, 5)] ∧
      (after (step (about (.writeByte .msg 8 5) (block 1 1 0 [] [])))).msg = [] := by decide

/-- WaitPollsStatus: busy and idle. -/
theorem witness_WaitPollsStatus :
    ((running .wait full).hostMoves .wait [] ∧ (running .wait full).busy = true) ∧
      ((about .wait full).hostMoves .wait [] ∧ (about .wait full).busy = false) := by decide

/-- ResetClearsTheRegisters and ResetAbandonsTheCommand: a reset event while a command is held. -/
theorem witness_reset_event :
    (running .reset full).port = .reset :: [] ∧ (running .reset full).engine = some 0x001 := by decide

/-- KeyIsReducedModulo256: the host is about to write the key -300. -/
theorem witness_KeyIsReducedModulo256 :
    (about (scriptKey (-300)) full).busy = false ∧
      (about (scriptKey (-300)) full).hostMoves (scriptKey (-300)) [] := by decide

/-- EveryStepKeepsTheInvariant and RecoveredTextStaysUtf8: a state with a recovered text, and its next step. -/
theorem witness_EveryStepKeepsTheInvariant :
    recovered.Inv ∧ utf8Valid recovered.textBytes = true ∧ ∃ t, step recovered = .next t :=
  ⟨⟨by decide, by decide, by decide, by decide, by decide, by decide, by decide, by decide, by decide, by decide⟩,
    by decide, ⟨_, rfl⟩⟩

/-- BusyBlockIgnoresTheHost: a busy state that meets the invariant, with a read of IMG and a read of KEY to come. -/
theorem witness_BusyBlockIgnoresTheHost :
    ((running (.readByte .img 0) (block 2 1 3 [7] [1, 2, 3])).Inv ∧
        (running (.readByte .img 0) (block 2 1 3 [7] [1, 2, 3])).busy = true ∧
        (running (.readByte .img 0) (block 2 1 3 [7] [1, 2, 3])).hostMoves (.readByte .img 0) []) ∧
      (running (.readCsr 2) (block 2 1 3 [7] [1, 2, 3])).Inv ∧
        (running (.readCsr 2) (block 2 1 3 [7] [1, 2, 3])).hostMoves (.readCsr 2) [] :=
  ⟨⟨⟨by decide, by decide, by decide, by decide, by decide, by decide, by decide, by decide, by decide, by decide⟩,
      by decide, by decide⟩,
    ⟨by decide, by decide, by decide, by decide, by decide, by decide, by decide, by decide, by decide, by decide⟩,
    by decide⟩

/-- StegoRoundTrip and PipelineRoundTrip: a valid UTF-8 message, one that is not (V-EM-11), and the empty one (V-EM-2). -/
theorem witness_StegoRoundTrip :
    (full.validDims ∧ full.embedFits ∧ 1 ≤ full.mlen ∧
        utf8Valid ((List.range full.mlen).map full.msgByte) = true) ∧
      ((block 8 5 0 [0xFF] []).validDims ∧ (block 8 5 0 [0xFF] []).embedFits ∧ 1 ≤ (block 8 5 0 [0xFF] []).mlen ∧
        utf8Valid ((List.range (block 8 5 0 [0xFF] []).mlen).map (block 8 5 0 [0xFF] []).msgByte) = false) ∧
      ((block 8 4 0 [] []).validDims ∧ (block 8 4 0 [] []).embedFits ∧ (block 8 4 0 [] []).mlen = 0) := by decide

/-- The round trips (CipherRoundTrip, FlipTwiceRestores, EmbedIsIdempotent, StegoRoundTrip, PipelineRoundTrip) ask for a
later state with the same image and registers: the state after the first command is one, and so is one with the host's
later accesses. -/
theorem witness_untouched_state (t : State) (e : HostEvent) :
    SameImage t { t with port := [e], draws := t.draws + 1 } ∧
      SameInputs t { t with port := [e], draws := t.draws + 1 } :=
  ⟨fun _ => rfl, rfl, rfl, rfl, rfl, fun _ => rfl⟩

/-- CommandsDependOnlyOnTheirOperands: two states that differ in STATUS, OUTLEN and OUT. -/
theorem witness_CommandsDependOnlyOnTheirOperands :
    SameOperands full { full with status := 0x302, outlen := 3, out := [(0, 1)] } :=
  ⟨⟨rfl, rfl, rfl, rfl, fun _ => rfl⟩, fun _ => rfl, rfl⟩

/-- MessageMattersOnlyToEmbedding: two states that differ in MSGLEN and MSG. -/
theorem witness_MessageMattersOnlyToEmbedding :
    runsEmbed (.rpipe true) = false ∧ SameImage full { full with msglen := 7, msg := [(0, 1)] } ∧
      full.msgByte 0 ≠ { full with msglen := 7, msg := [(0, 1)] }.msgByte 0 :=
  ⟨rfl, fun _ => rfl, by decide⟩

/-- WrittenOperandsFixTheResult: every sample and message byte is written. -/
theorem witness_WrittenOperandsFixTheResult :
    (block 2 1 3 [0x41] [1, 2, 3, 4, 5, 6]).imageWritten ∧ (block 2 1 3 [0x41] [1, 2, 3, 4, 5, 6]).messageWritten := by
  unfold State.imageWritten State.messageWritten
  decide

/-- TextChangesOnlyByExtract, InputsChangeOnlyByTheHost, ParametersNeverChange: the steps that do change something. -/
theorem witness_changes :
    (after (step ((carrier 40 8 [0, 1, 0, 0, 0, 0, 0, 1]).holdCommand 0x005))).outlen = 1 ∧
      (after (step (about (.writeCsr 5 6) full))).msglen = 6 ∧
      (after (step (about (.writeByte .msg 7 6) full))).msgByte 7 = 6 := by decide +kernel

/-- ImageLayoutIsInvertible: the last byte of a 4 × 4 image. -/
theorem witness_ImageLayoutIsInvertible : (47 : Nat) < 3 * (4 * 4) ∧ addr 4 3 3 2 = 47 := by decide

/-- FlipCommutesWithTheCipher: V-FL-6 at its first pixel. -/
theorem witness_FlipCommutesWithTheCipher :
    (block 3 2 1 [] []).validDims ∧
      (after (exec .flip (after (exec .enc (block 3 2 1 []
        [1, 2, 3, 4, 5, 6, 7, 8, 9, 10, 11, 12, 13, 14, 15, 16, 17, 18]))))).imgByte 0 = 0x11 := by decide +kernel

end Sys2Proof.Tests
end

section
/-! PROOFS. The scope of the model: a due command word runs its command (R8), and the parameters stay (R5). -/

namespace Sys2Proof.Machine

/-! ### A held command is due -/

/-- A whole 32-bit word survives the trip through the opcode table's numbers (R50). -/
@[simp] theorem tableWord_toNat (w : Word) : tableWord 32 w.toNat = w := by
  rw [tableWord, Nat.mod_eq_of_lt w.isLt, BitVec.ofNat_toNat, BitVec.setWidth_eq]

/-- A word just handed to the engine is due: its busy interval is over and holdCommand dropped the resets in front. -/
theorem State.holdCommand_completes (s : State) (w : Word) : (s.holdCommand w).completes w := by
  have hport : (s.holdCommand w).port.head? ≠ some .reset := by
    intro hreset
    have hhead := List.head?_dropWhile_not (fun e => decide (e = HostEvent.reset)) s.port
    rw [State.holdCommand_port] at hreset
    simp [hreset] at hhead
  exact ⟨rfl, .inl rfl, hport⟩

theorem step_of_completes_ok {s : State} {w : Word} {i : Instr} (h : s.completes w) (hd : decode w = .ok i) :
    step s = exec i s := by
  rw [step_of_completes h, hd]

/-! ### The parameters -/

/-- The completion of a command, with or without an error, keeps the parameters. -/
theorem exec_params {i : Instr} {s t : State} (h : exec i s = .next t) : t.params = s.params := by
  rcases exec_cases h with ⟨e, -, rfl⟩ | ⟨-, -, rfl⟩
  · exact s.raise_params e
  · obtain ⟨-, ⟨hparams, -⟩, -⟩ := commandEffect_frame i s
    exact hparams

@[simp] theorem State.csrWrite_params (s : State) (n : Nat) (w : Word) : (s.csrWrite n w).params = s.params := by
  unfold State.csrWrite
  split
  · rfl
  · split <;> rfl

@[simp] theorem State.access_params (s : State) (e : HostEvent) (rest : List HostEvent) :
    (s.access e rest).params = s.params := by
  rcases s.access_cases e rest with ⟨d, h⟩ | ⟨-, w, -, h⟩ | ⟨-, n, w, -, -, -, h⟩ | ⟨-, i, v, -, -, h⟩ | ⟨-, j, v, -, -, h⟩
  case inr.inr.inl =>
    rw [h]
    exact State.csrWrite_params (s.deliver rest) n w
  all_goals rw [h]; rfl

theorem step_params {s t : State} (h : step s = .next t) : t.params = s.params := by
  rcases step_cases h with ⟨rest, -, rfl⟩ | ⟨w, i, -, -, hexec⟩ | ⟨w, e, -, -, rfl⟩ | ⟨e, rest, -, rfl⟩ | ⟨-, -, rfl⟩
  · exact s.takeReset_params rest
  · exact exec_params hexec
  · exact s.raise_params .illegalCmd
  · exact s.access_params e rest
  · rfl

/-! ### The obligations -/

/-- Settles O5: a held word is due, and a due word that decodes to a command runs it. -/
theorem stepRunsTheDecodedCommand : Obligations.StepRunsTheDecodedCommand := by
  refine ⟨fun s w i hdue hdecode => step_of_completes_ok hdue hdecode, fun s w i hdecode => ?_⟩
  rw [State.withFetchWord, tableWord_toNat]
  exact step_of_completes_ok (s.holdCommand_completes w) hdecode

/-- Settles O52: each kind of step keeps the parameters. -/
theorem parametersNeverChange : Obligations.ParametersNeverChange :=
  fun _ _ => step_params

end Sys2Proof.Machine
end

section
/-! PROOFS. The command words: an accepted word is the encoding of its command, so it is legal (R54, R55). -/

namespace Sys2Proof

/-! ### The fields of a command word -/

@[simp] theorem opcField_commandWord (opc : BitVec 8) (stego : Bool) : opcField (commandWord opc stego) = opc := by
  have hopc := opc.isLt
  apply BitVec.eq_of_toNat_eq
  rw [opcField_toNat, commandWord_toNat]
  omega

@[simp] theorem stegoField_commandWord (opc : BitVec 8) (stego : Bool) :
    stegoField (commandWord opc stego) = stego := by
  have hopc := opc.isLt
  have hdiv : (256 * stego.toNat + opc.toNat) / 256 % 2 = stego.toNat := by
    have hstego := stego.toNat_lt
    omega
  rw [stegoField_eq, commandWord_toNat, hdiv]
  cases stego <;> rfl

@[simp] theorem reservedField_commandWord (opc : BitVec 8) (stego : Bool) :
    reservedField (commandWord opc stego) = 0 := by
  have hopc := opc.isLt
  have hstego := stego.toNat_lt
  apply BitVec.eq_of_toNat_eq
  rw [reservedField_toNat, commandWord_toNat]
  simp only [BitVec.ofNat_eq_ofNat, BitVec.toNat_ofNat]
  omega

/-- A word with no reserved bit set is the command word of its two other fields. -/
theorem eq_commandWord_of_reserved {w : Word} (h : reservedField w = 0) :
    w = commandWord (opcField w) (stegoField w) :=
  word_ext_fields (by simp [h]) (by simp) (by simp)

/-! ### Accepted and rejected words -/

theorem encode_eq_of_decode {w : Word} {i : Instr} (h : decode w = .ok i) : encode i = w := by
  obtain ⟨hres, hfields⟩ := decode_ok_fields h
  have hw := eq_commandWord_of_reserved hres
  rcases hfields with ⟨ho, hs, rfl⟩ | ⟨ho, hs, rfl⟩ | ⟨ho, hs, rfl⟩ | ⟨ho, hs, rfl⟩ | ⟨ho, hs, rfl⟩ | ⟨ho, rfl⟩ | ⟨ho, rfl⟩
  case inr.inr.inr.inr.inr.inl | inr.inr.inr.inr.inr.inr =>
    rw [ho] at hw
    exact hw.symm
  all_goals
    rw [ho, hs] at hw
    exact hw.symm

theorem legalWord_encode (i : Instr) : legalWord (encode i) = true := by
  cases i with
  | enc => exact Laws.EncodedLegal.enc.1
  | dec => exact Laws.EncodedLegal.dec.1
  | flip => exact Laws.EncodedLegal.flip.1
  | embed => exact Laws.EncodedLegal.embed.1
  | extract => exact Laws.EncodedLegal.extract.1
  | wpipe stego => exact (Laws.EncodedLegal.wpipe stego).1
  | rpipe stego => exact (Laws.EncodedLegal.rpipe stego).1

/-- A word that is not legal is rejected (R54). -/
theorem decode_error_of_not_legal {w : Word} (h : legalWord w = false) : ∃ e, decode w = .error e := by
  cases hd : decode w with
  | error e => exact ⟨e, rfl⟩
  | ok i =>
    have hlegal := legalWord_encode i
    rw [encode_eq_of_decode hd, h] at hlegal
    cases hlegal

end Sys2Proof
end

section
/-! PROOFS. The host port and reset: a CSR read, a CSR write and a reset event, each with what it changes and what it
leaves unchanged. -/

namespace Sys2Proof.Machine

variable {s : State}

theorem statusBusy_eq : statusBusy = 0x001 := by decide

theorem statusDone_illegalCmd : statusDone .illegalCmd .none = 0x012 := by decide

/-! ### One access -/

/-- Only the poll is made again (R57). -/
@[simp] theorem State.afterEvent_of_ne_wait {e : HostEvent} (h : e ≠ .wait) (rest : List HostEvent) :
    s.afterEvent e rest = rest := by
  simp [State.afterEvent, h]

/-- A CSR read leaves the port and returns what csrRead says (R39, R40). -/
theorem State.access_readCsr (n : Nat) (rest : List HostEvent) :
    s.access (.readCsr n) rest = s.withHostSide (s.busyLeft - 1) rest (.word (s.csrRead n)) s.draws := by
  rw [s.access_of_noEffect rest fun _ => rfl, State.afterEvent_of_ne_wait (by simp), State.answer]

/-- A CSR write leaves the port and does what csrWrite says. -/
theorem State.access_writeCsr (n : Nat) (w : Word) (rest : List HostEvent) :
    s.access (.writeCsr n w) rest = { (s.deliver rest).csrWrite n w with reply := .nothing } := by
  rw [State.access_eq, State.afterEvent_of_ne_wait (by simp)]
  rfl

/-- A CSR write that csrWrite ignores moves the host's side only. -/
theorem State.access_writeCsr_of_ignored {n : Nat} {w : Word} {rest : List HostEvent}
    (h : (s.deliver rest).csrWrite n w = s.deliver rest) :
    s.access (.writeCsr n w) rest = s.withHostSide (s.busyLeft - 1) rest .nothing s.draws := by
  rw [State.access_writeCsr, h]
  rfl

/-! ### csrRead and csrWrite, one rule per register number -/

theorem State.csrRead_of_ge {n : Nat} (hn : 7 ≤ n) : s.csrRead n = 0 := by
  obtain ⟨k, rfl⟩ := Nat.exists_eq_add_of_le' hn
  rfl

/-- STATUS, OUTLEN and the numbers from 7 on ignore a write (R13, R18, R19). -/
theorem State.csrWrite_of_readOnly {n : Nat} (hn : n = 1 ∨ 6 ≤ n) (w : Word) : s.csrWrite n w = s := by
  obtain rfl | hn := hn
  · exact ite_self s
  · obtain ⟨k, rfl⟩ := Nat.exists_eq_add_of_le' hn
    exact ite_self s

/-- A write to CMD while BUSY = 0 is the accept event (R12). -/
theorem State.csrWrite_cmd (hb : s.busy = false) (w : Word) : s.csrWrite 0 w = s.accept w := by
  simp [State.csrWrite, hb]

/-- While BUSY = 0 a write to any register but CMD sets the field of that number, if it has one (R13 to R19). -/
theorem State.csrWrite_of_idle (hb : s.busy = false) {n : Nat} (hn : n ≠ 0) (w : Word) :
    s.csrWrite n w =
      { s with
        key := if n = 2 then w.setWidth 8 else s.key
        width := if n = 3 then w.setWidth 16 else s.width
        height := if n = 4 then w.setWidth 16 else s.height
        msglen := if n = 5 then w else s.msglen } := by
  unfold State.csrWrite
  rw [hb]
  simp only [Bool.false_eq_true, if_false]
  split
  · exact absurd rfl hn
  case h_6 => simp_all
  all_goals rfl

/-- The number a CSR read returns: the register's field with zeros above it, 0 for CMD and the numbers from 7 on. -/
theorem State.csrRead_toNat (s : State) (n : Nat) :
    (s.csrRead n).toNat =
      if n = 1 then s.status.toNat
      else if n = 2 then s.key.toNat
      else if n = 3 then s.width.toNat
      else if n = 4 then s.height.toNat
      else if n = 5 then s.msglen.toNat
      else if n = 6 then s.outlen.toNat
      else 0 := by
  have hkey := s.key.isLt
  have hwidth := s.width.isLt
  have hheight := s.height.isLt
  unfold State.csrRead
  split
  case h_7 => simp_all
  all_goals simp
  all_goals omega

/-! ### The steps -/

/-- A CSR read changes nothing of the block, busy or not. -/
theorem step_of_readCsr {n : Nat} {rest : List HostEvent} (h : s.hostMoves (.readCsr n) rest) :
    ∃ t, step s = .next t ∧ t.reply = .word (s.csrRead n) ∧ t.port = rest ∧ SameBlock s t := by
  refine ⟨_, step_of_hostMoves h, ?_⟩
  rw [State.access_readCsr]
  exact ⟨rfl, rfl, s.withHostSide_sameBlock _ _ _ _⟩

/-- A write that csrWrite ignores changes nothing of the block. -/
theorem step_of_writeCsr_ignored {n : Nat} {w : Word} {rest : List HostEvent} (h : s.hostMoves (.writeCsr n w) rest)
    (hignored : (s.deliver rest).csrWrite n w = s.deliver rest) :
    ∃ t, step s = .next t ∧ t.reply = .nothing ∧ t.port = rest ∧ SameBlock s t := by
  refine ⟨_, step_of_hostMoves h, ?_⟩
  rw [State.access_writeCsr_of_ignored hignored]
  exact ⟨rfl, rfl, s.withHostSide_sameBlock _ _ _ _⟩

/-- A write to CMD while BUSY = 0 is accepted, whatever the word (R12). -/
theorem step_of_writeCmd {w : Word} {rest : List HostEvent} (h : s.hostMoves (.writeCsr 0 w) rest)
    (hb : s.busy = false) : step s = .next { (s.deliver rest).accept w with reply := .nothing } := by
  rw [step_of_hostMoves h, State.access_writeCsr, State.csrWrite_cmd (s := s.deliver rest) hb]

theorem step_of_idle (hport : s.port = []) (hengine : s.engine = none) : step s = .next s := by
  simp only [step, s.turn_eq_idle_iff.2 ⟨hport, hengine⟩]

theorem step_of_completes_error {w : Word} {e : IllegalWord} (h : s.completes w) (hd : decode w = .error e) :
    step s = .next (s.raise .illegalCmd) := by
  rw [step_of_completes h, hd]

/-! ### The obligations -/

/-- Settles O11: it is nobody's turn. -/
theorem idleBlockStays : Obligations.IdleBlockStays :=
  fun _ hport hengine => step_of_idle hport hengine

/-- Settles O12: csrRead is the answer, and a read has no effect. -/
theorem csrReadReturnsTheRegister : Obligations.CsrReadReturnsTheRegister := by
  intro s n rest hmove
  obtain ⟨t, hstep, hreply, hport, hsame⟩ := step_of_readCsr hmove
  exact ⟨t, s.csrRead n, hstep, hreply, hport, hsame, s.csrRead_toNat n⟩

/-- Settles O14: csrWrite in closed form gives the four fields, and all else is as it was. -/
theorem registerWriteTakesItsField : Obligations.RegisterWriteTakesItsField := by
  intro s n w rest hmove hb hn
  refine ⟨_, step_of_hostMoves hmove, ?_⟩
  rw [State.access_writeCsr, State.csrWrite_of_idle (s := s.deliver rest) hb hn]
  refine ⟨rfl, rfl, ?key, ?width, ?height, rfl, rfl, rfl, rfl, fun _ => rfl, fun _ => rfl, rfl, fun _ => rfl⟩
  case key | width | height => simp [apply_ite BitVec.toNat]

/-- Settles O15: csrRead and csrWrite have no such number. -/
theorem undefinedRegisterNumbersDoNothing : Obligations.UndefinedRegisterNumbersDoNothing := by
  intro s n rest hn
  constructor
  · intro hmove
    obtain ⟨t, hstep, hreply, -, hsame⟩ := step_of_readCsr hmove
    rw [State.csrRead_of_ge hn] at hreply
    exact ⟨t, hstep, hreply, hsame⟩
  · intro w hmove
    obtain ⟨t, hstep, hreply, -, hsame⟩ :=
      step_of_writeCsr_ignored hmove (State.csrWrite_of_readOnly (by omega) w)
    exact ⟨t, hstep, hreply, hsame⟩

/-- Settles O13: the three accesses to CMD, and the completion of a word that is no command. -/
theorem writeToCmdIsTheAcceptEvent : Obligations.WriteToCmdIsTheAcceptEvent := by
  refine ⟨fun s rest => ⟨fun hmove => ?read, fun w hmove => ⟨fun hb => ?accept, fun hb => ?dropped⟩⟩,
    fun s w hillegal hdue => ?illegal⟩
  case read =>
    obtain ⟨t, hstep, hreply, -, hsame⟩ := step_of_readCsr hmove
    exact ⟨t, hstep, hreply, hsame⟩
  case accept =>
    exact ⟨_, step_of_writeCmd hmove hb, statusBusy_eq, rfl, rfl, ⟨rfl, rfl, rfl, rfl, fun _ => rfl⟩, fun _ => rfl,
      ⟨rfl, fun _ => rfl⟩, rfl⟩
  case dropped =>
    obtain ⟨t, hstep, -, hport, hsame⟩ :=
      step_of_writeCsr_ignored hmove ((s.deliver rest).csrWrite_of_busy hb 0 w)
    exact ⟨t, hstep, hport, hsame⟩
  case illegal =>
    obtain ⟨e, he⟩ := decode_error_of_not_legal hillegal
    exact ⟨_, step_of_completes_error hdue he, statusDone_illegalCmd⟩

/-- Settles O20: the reset event and the state the machine starts in, field by field. -/
theorem resetClearsTheRegisters : Obligations.ResetClearsTheRegisters := by
  refine ⟨fun s rest hport => ?event, rfl, rfl, rfl, rfl, rfl, rfl, rfl,
    fun _ => ⟨0, rfl⟩, fun _ => ⟨0, rfl⟩, fun _ => ⟨0, rfl⟩⟩
  case event => exact ⟨s.takeReset rest, step_of_reset hport, rfl, rfl, rfl, rfl, rfl, rfl, rfl, rfl, rfl,
    fun _ => rfl, fun _ => rfl, fun _ => rfl⟩

end Sys2Proof.Machine
end

section
/-! PROOFS. The state invariant (R29): it holds after reset, and every step keeps it. -/

namespace Sys2Proof

/-! ### The parameters -/

theorem Params.legal_iff (p : Params) :
    p.legal = true ↔ 1 ≤ p.maxpix ∧ p.maxpix ≤ 4294836225 ∧ p.msgmax ≤ 536870911 := by
  simp [Params.legal, and_assoc]

/-- OUTSZ is the byte count of R79 at N = MAXPIX. -/
theorem Params.outsz_eq (p : Params) : p.outsz = (p.maxpix - 32) / 8 := by
  unfold Params.outsz
  split <;> omega

theorem Params.outsz_lt {p : Params} (h : p.legal = true) : p.outsz < 2 ^ 32 := by
  obtain ⟨-, hmax, -⟩ := p.legal_iff.1 h
  rw [p.outsz_eq]
  omega

end Sys2Proof

namespace Sys2Proof.Machine

variable {s : State}

/-- The model's own parameters meet the bounds of R5, whatever the raw constants are. -/
theorem reset_params_legal : State.reset.params.legal = true := by
  have hpix : Config.maxpixRaw % 4294836225 < 4294836225 := Nat.mod_lt _ (by decide)
  have hmsg : Config.msgmaxRaw % 536870912 < 536870912 := Nat.mod_lt _ (by decide)
  rw [Params.legal_iff]
  simp only [State.reset, Config.maxpix, Config.msgmax]
  omega

/-! ### STATUS -/

/-- Every completion of R13's list: an error reports no extract outcome. -/
theorem statusDone_mem_legalStatus {e : ErrCode} {x : ExtractResult} (h : e = .ok ∨ x = .none) :
    statusDone e x ∈ legalStatus := by
  rcases h with rfl | rfl
  · cases x <;> decide
  · cases e <;> decide

@[simp] theorem busyBit_zero : busyBit 0 = false := by decide

theorem statusBusy_mem_legalStatus : statusBusy ∈ legalStatus := by decide

/-! ### Each operation keeps the invariant -/

/-- After a reset event every register is 0 and every memory is empty: nothing of the state before matters but the
parameters. -/
theorem State.takeReset_inv (hp : s.params.legal = true) (rest : List HostEvent) : (s.takeReset rest).Inv where
  params := hp
  status := by simp [legalStatus]
  busy := busyBit_zero
  outlen := Nat.zero_le _
  imgWf := List.Pairwise.nil
  msgWf := List.Pairwise.nil
  outWf := List.Pairwise.nil
  imgRange := by simp
  msgRange := by simp
  outRange := by simp

theorem State.Inv.withHostSide (h : s.Inv) (b : Nat) (p : List HostEvent) (r : Reply) (d : Nat) :
    (s.withHostSide b p r d).Inv :=
  { h with }

theorem State.Inv.accept (h : s.Inv) (w : Word) : (s.accept w).Inv :=
  { h with
    status := statusBusy_mem_legalStatus
    busy := busyBit_statusBusy }

theorem State.Inv.complete (h : s.Inv) {e : ErrCode} {x : ExtractResult} (hx : e = .ok ∨ x = .none) :
    (s.complete e x).Inv :=
  { h with
    status := statusDone_mem_legalStatus hx
    busy := busyBit_statusDone e x }

theorem State.Inv.raise (h : s.Inv) (e : ErrCode) : (s.raise e).Inv :=
  h.complete (.inr rfl)

theorem State.Inv.csrWrite (h : s.Inv) (hb : s.busy = false) {n : Nat} (hn : n ≠ 0) (w : Word) : (s.csrWrite n w).Inv := by
  rw [State.csrWrite_of_idle hb hn]
  exact { h with }

/-- A new IMG in canonical form and within MAXPIX pixels. -/
theorem State.Inv.withImg (h : s.Inv) {m : Memory} (hwf : m.wf) (hrange : ∀ c ∈ m, c.1 < 3 * s.params.maxpix) :
    { s with img := m }.Inv :=
  { h with
    imgWf := hwf
    imgRange := hrange }

theorem State.Inv.writeImg (h : s.Inv) {i : Nat} (hi : i < 3 * s.params.maxpix) (v : Byte) :
    { s with img := s.img.write i v }.Inv := by
  refine h.withImg (Memory.wf_write h.imgWf i v) fun c hc => ?_
  rcases Memory.mem_write hc with rfl | hc
  · exact hi
  · exact h.imgRange c hc

theorem State.Inv.fillImg (h : s.Inv) {n : Nat} (hn : n ≤ 3 * s.params.maxpix) (f : Nat → Option Byte) :
    { s with img := s.img.fill n f }.Inv := by
  refine h.withImg (Memory.wf_fill h.imgWf n f) fun c hc => ?_
  rcases Memory.mem_fill hc with ⟨hlt, -⟩ | ⟨-, hc⟩
  · exact Nat.lt_of_lt_of_le hlt hn
  · exact h.imgRange c hc

theorem State.Inv.writeMsg (h : s.Inv) {j : Nat} (hj : j < s.params.msgmax) (v : Byte) :
    { s with msg := s.msg.write j v }.Inv :=
  { h with
    msgWf := Memory.wf_write h.msgWf j v
    msgRange := fun c hc => by
      rcases Memory.mem_write hc with rfl | hc
      · exact hj
      · exact h.msgRange c hc }

/-- A text that OUT can hold has a length that OUTLEN can hold. -/
theorem toNat_ofNat_of_le_outsz {p : Params} (hp : p.legal = true) {n : Nat} (hn : n ≤ p.outsz) :
    (BitVec.ofNat 32 n).toNat = n := by
  rw [BitVec.toNat_ofNat, Nat.mod_eq_of_lt (Nat.lt_of_le_of_lt hn (Params.outsz_lt hp))]

theorem State.Inv.storeText (h : s.Inv) {bytes : List Byte} (hlen : bytes.length ≤ s.params.outsz) :
    (s.storeText bytes).Inv := by
  have hout : (s.storeText bytes).outlen.toNat = bytes.length := toNat_ofNat_of_le_outsz h.params hlen
  exact
    { h with
      outlen := hout ▸ hlen
      outWf := Memory.wf_ofBytes bytes
      outRange := fun c hc => hout ▸ Memory.lt_of_mem_ofBytes hc }

/-! ### Each command keeps the invariant -/

/-- The text of an extract fits into OUT when the image fits into IMG (R5, R79). -/
theorem extractImg_length_le_outsz (hd : s.validDims) (image : Image) :
    (extractImg s.pixels image).2.length ≤ s.params.outsz := by
  obtain ⟨-, -, hpix⟩ := hd
  rw [Params.outsz_eq]
  exact (extractImg_length_le _ _).trans (Nat.div_le_div_right (Nat.sub_le_sub_right hpix 32))

theorem State.Inv.finishExtract (h : s.Inv) {n : Nat} {image : Image}
    (hlen : (extractImg n image).2.length ≤ s.params.outsz) : (s.finishExtract n image).Inv :=
  (h.storeText hlen).complete (.inl rfl)

/-- With valid dimensions the whole image lies in IMG (R93). -/
theorem State.samples_le (hd : s.validDims) : s.samples ≤ 3 * s.params.maxpix := by
  obtain ⟨-, -, hpix⟩ := hd
  exact Nat.mul_le_mul_left 3 hpix

/-- When the message fits, the slots of the bitstream lie in IMG (R75). -/
theorem State.slots_le (hd : s.validDims) (hfits : s.embedFits) : 3 * s.streamBits ≤ 3 * s.params.maxpix := by
  obtain ⟨-, hslots⟩ := hfits
  exact (Nat.mul_le_mul_left 3 hslots).trans (State.samples_le hd)

theorem State.Inv.storeImage (h : s.Inv) (hd : s.validDims) (image : Image) : (s.storeImage s.samples image).Inv :=
  h.fillImg (State.samples_le hd) _

theorem State.Inv.storeSlots (h : s.Inv) (hd : s.validDims) (hfits : s.embedFits) (image : Image) :
    (s.storeSlots s.streamBits image).Inv :=
  h.fillImg (State.slots_le hd hfits) _

theorem State.Inv.commandEffect (h : s.Inv) {i : Instr} (hd : s.validDims) (he : runsEmbed i = true → s.embedFits) :
    (commandEffect i s).Inv := by
  have htext : ∀ image, (extractImg s.pixels image).2.length ≤ s.params.outsz := extractImg_length_le_outsz hd
  cases i with
  | embed => exact (h.storeSlots hd (he rfl) _).complete (.inl rfl)
  | extract => exact h.finishExtract (htext _)
  | rpipe stego =>
    cases stego
    · exact (h.storeImage hd _).complete (.inl rfl)
    · exact (h.storeImage hd _).finishExtract (htext _)
  | _ => exact (h.storeImage hd _).complete (.inl rfl)

theorem State.Inv.exec (h : s.Inv) {i : Instr} {t : State} (hexec : exec i s = .next t) : t.Inv := by
  rcases exec_cases hexec with ⟨e, -, rfl⟩ | ⟨hd, he, rfl⟩
  · exact h.raise e
  · exact h.commandEffect hd he

/-! ### Each access and each step keeps the invariant -/

theorem State.Inv.deliver (h : s.Inv) (rest : List HostEvent) : (s.deliver rest).Inv :=
  h.withHostSide (s.busyLeft - 1) rest s.reply s.draws

theorem State.Inv.withReply (h : s.Inv) (r : Reply) : { s with reply := r }.Inv :=
  h.withHostSide s.busyLeft s.port r s.draws

theorem State.Inv.access (h : s.Inv) (e : HostEvent) (rest : List HostEvent) : (s.access e rest).Inv := by
  have hd : (s.deliver rest).Inv := h.deliver rest
  rcases s.access_cases e rest with ⟨d, ht⟩ | ⟨-, w, -, ht⟩ | ⟨hb, n, w, -, hn, -, ht⟩ | ⟨-, i, v, -, hi, ht⟩ |
    ⟨-, j, v, -, hj, ht⟩ <;> rw [ht]
  · exact h.withHostSide _ _ _ d
  · exact (hd.accept w).withReply _
  · exact (hd.csrWrite hb (by omega) w).withReply _
  · exact (hd.writeImg hi v).withReply _
  · exact (hd.writeMsg hj v).withReply _

theorem State.Inv.step (h : s.Inv) {t : State} (hstep : step s = .next t) : t.Inv := by
  rcases step_cases hstep with ⟨rest, -, rfl⟩ | ⟨w, i, -, -, hexec⟩ | ⟨w, e, -, -, rfl⟩ | ⟨e, rest, -, rfl⟩ | ⟨-, -, rfl⟩
  · exact State.takeReset_inv h.params rest
  · exact h.exec hexec
  · exact h.raise .illegalCmd
  · exact h.access e rest
  · exact h

/-! ### The obligations -/

/-- Settles O7: every register is 0, every memory is empty, and the parameters are drawn within their bounds. -/
theorem invariantHoldsAfterReset : Obligations.InvariantHoldsAfterReset :=
  ⟨{ State.takeReset_inv (s := State.reset) reset_params_legal [] with }, rfl⟩

/-- Settles O8: reset, completion, host access and idle step each keep the invariant. -/
theorem everyStepKeepsTheInvariant : Obligations.EveryStepKeepsTheInvariant :=
  fun _ _ h hstep => h.step hstep

end Sys2Proof.Machine
end

section
/-! PROOFS. What each kind of step can change: STATUS, the recovered text and the inputs (R18, R20, R22, R25, R114), and
that the recovered text stays well-formed UTF-8. -/

namespace Sys2Proof.Machine

variable {s t : State}

/-! ### The three views of a state that most steps keep -/

theorem SameInputs.refl (s : State) : SameInputs s s :=
  ⟨rfl, rfl, rfl, rfl, fun _ => rfl⟩

theorem SameText.refl (s : State) : SameText s s :=
  ⟨rfl, fun _ => rfl⟩

/-- An unchanged text reads the same. -/
theorem SameText.textBytes (h : SameText s t) : t.textBytes = s.textBytes := by
  obtain ⟨hlen, hout⟩ := h
  rw [State.textBytes, State.textBytes, hlen, funext hout]

/-! ### Completions -/

/-- A command that runs extract ends by reporting the extract of some image of W × H pixels. -/
theorem commandEffect_of_runsExtract {i : Instr} (h : runsExtract i = true) (s : State) :
    ∃ (u : State) (image : Image), commandEffect i s = u.finishExtract s.pixels image := by
  cases i with
  | extract => exact ⟨s, s.imgByte, rfl⟩
  | rpipe stego =>
    obtain rfl : stego = true := h
    exact ⟨s.storeImage s.samples (readStages s), readStages s, rfl⟩
  | _ => cases h

/-- The two words whose commands run extract (R18). -/
theorem word_of_runsExtract {w : Word} {i : Instr} (hdecode : decode w = .ok i) (hruns : runsExtract i = true) :
    w = 0x005 ∨ w = 0x107 := by
  rw [← encode_eq_of_decode hdecode]
  cases i with
  | extract => exact .inl (by decide)
  | rpipe stego =>
    obtain rfl : stego = true := hruns
    exact .inr (by decide)
  | _ => cases hruns

/-- A command's effect ends with ERR = OK. -/
theorem commandEffect_status (i : Instr) (s : State) : ∃ x, (commandEffect i s).status = statusDone .ok x := by
  cases i with
  | extract => exact ⟨_, rfl⟩
  | rpipe stego => cases stego <;> exact ⟨_, rfl⟩
  | _ => exact ⟨_, rfl⟩

/-- Every due word completes with some outcome (R92). -/
theorem exec_status {i : Instr} (h : exec i s = .next t) : t.engine = none ∧ ∃ e x, t.status = statusDone e x := by
  rcases exec_cases h with ⟨e, -, rfl⟩ | ⟨-, -, rfl⟩
  · exact ⟨rfl, e, .none, rfl⟩
  · obtain ⟨-, -, hengine, -⟩ := commandEffect_frame i s
    obtain ⟨x, hx⟩ := commandEffect_status i s
    exact ⟨hengine, .ok, x, hx⟩

/-- No command writes the inputs (R20, R27). -/
theorem exec_sameInputs {i : Instr} (h : exec i s = .next t) : SameInputs s t := by
  rcases exec_cases h with ⟨e, -, rfl⟩ | ⟨-, -, rfl⟩
  · exact SameInputs.refl s
  · obtain ⟨hinputs, -⟩ := commandEffect_frame i s
    exact hinputs

/-- A command leaves the text alone, or it is one that runs extract and has no error. -/
theorem exec_text_cases {i : Instr} (h : exec i s = .next t) :
    SameText s t ∨ (runsExtract i = true ∧ s.validDims ∧ t = commandEffect i s) := by
  rcases exec_cases h with ⟨e, -, rfl⟩ | ⟨hd, -, rfl⟩
  · exact .inl (SameText.refl s)
  · cases hx : runsExtract i with
    | false => exact .inl (commandEffect_sameText hx s)
    | true => exact .inr ⟨rfl, hd, rfl⟩

/-! ### Accesses -/

/-- A CSR write to any number but CMD's leaves STATUS, the held word and the text alone. -/
theorem State.csrWrite_frame {n : Nat} (hn : n ≠ 0) (w : Word) :
    (s.csrWrite n w).status = s.status ∧ (s.csrWrite n w).engine = s.engine ∧ SameText s (s.csrWrite n w) := by
  cases hb : s.busy with
  | true => rw [s.csrWrite_of_busy hb]; exact ⟨rfl, rfl, SameText.refl s⟩
  | false => rw [State.csrWrite_of_idle hb hn]; exact ⟨rfl, rfl, SameText.refl s⟩

/-- An access changes STATUS and the held word by the accept event only (R22). -/
theorem State.access_status_cases (e : HostEvent) (rest : List HostEvent) :
    (s.busy = false ∧ ∃ w, e = .writeCsr 0 w ∧ (s.access e rest).status = statusBusy ∧ (s.access e rest).engine = some w) ∨
      ((s.access e rest).status = s.status ∧ (s.access e rest).engine = s.engine) := by
  rcases s.access_cases e rest with ⟨d, ht⟩ | ⟨hb, w, he, ht⟩ | ⟨-, n, w, -, hn, -, ht⟩ | ⟨-, i, v, -, -, ht⟩ |
    ⟨-, j, v, -, -, ht⟩ <;> rw [ht]
  · exact .inr ⟨rfl, rfl⟩
  · exact .inl ⟨hb, w, he, rfl, rfl⟩
  · obtain ⟨hstatus, hengine, -⟩ := State.csrWrite_frame (s := s.deliver rest) (n := n) (by omega) w
    exact .inr ⟨hstatus, hengine⟩
  · exact .inr ⟨rfl, rfl⟩
  · exact .inr ⟨rfl, rfl⟩

/-- No access writes OUT or OUTLEN (R18, R25). -/
theorem State.access_sameText (e : HostEvent) (rest : List HostEvent) : SameText s (s.access e rest) := by
  rcases s.access_cases e rest with ⟨d, ht⟩ | ⟨-, w, -, ht⟩ | ⟨-, n, w, -, hn, -, ht⟩ | ⟨-, i, v, -, -, ht⟩ |
    ⟨-, j, v, -, -, ht⟩ <;> rw [ht]
  case inr.inr.inl =>
    obtain ⟨-, -, htext⟩ := State.csrWrite_frame (s := s.deliver rest) (n := n) (by omega) w
    exact htext
  all_goals exact ⟨rfl, fun _ => rfl⟩

/-- An access changes the inputs only by a write to one of the registers 2 to 5, or to MSG within its bounds, while
BUSY = 0 (R40). -/
theorem State.access_inputs_cases (e : HostEvent) (rest : List HostEvent) :
    SameInputs s (s.access e rest) ∨
      (s.busy = false ∧
        ((∃ n w, e = .writeCsr n w ∧ 2 ≤ n ∧ n ≤ 5) ∨ ∃ j v, e = .writeByte .msg j v ∧ j < s.params.msgmax)) := by
  rcases s.access_cases e rest with ⟨d, ht⟩ | ⟨-, w, -, ht⟩ | ⟨hb, n, w, he, hn, hn', -⟩ | ⟨-, i, v, -, -, ht⟩ |
    ⟨hb, j, v, he, hj, -⟩
  case inr.inr.inl => exact .inr ⟨hb, .inl ⟨n, w, he, hn, hn'⟩⟩
  case inr.inr.inr.inr => exact .inr ⟨hb, .inr ⟨j, v, he, hj⟩⟩
  all_goals
    rw [ht]
    exact .inl ⟨rfl, rfl, rfl, rfl, fun _ => rfl⟩

/-! ### Steps -/

/-- A step leaves the text alone, or is a reset event, or is the completion of a command that runs extract. -/
theorem step_text_cases (h : step s = .next t) :
    SameText s t ∨ (∃ rest, s.port = .reset :: rest ∧ t = s.takeReset rest) ∨
      ∃ w i, s.completes w ∧ decode w = .ok i ∧ runsExtract i = true ∧ s.validDims ∧ t = commandEffect i s := by
  rcases step_cases h with ⟨rest, hport, rfl⟩ | ⟨w, i, hdue, hdecode, hexec⟩ | ⟨w, e, -, -, rfl⟩ | ⟨e, rest, -, rfl⟩ |
    ⟨-, -, rfl⟩
  · exact .inr (.inl ⟨rest, hport, rfl⟩)
  · rcases exec_text_cases hexec with hsame | ⟨hruns, hd, rfl⟩
    · exact .inl hsame
    · exact .inr (.inr ⟨w, i, hdue, hdecode, hruns, hd, rfl⟩)
  · exact .inl (SameText.refl s)
  · exact .inl (State.access_sameText e rest)
  · exact .inl (SameText.refl _)

/-! ### The recovered text -/

@[simp] theorem State.takeReset_textBytes (rest : List HostEvent) : (s.takeReset rest).textBytes = [] := rfl

/-- After an extract the recovered text is the text it found, when OUTLEN can hold its length. -/
theorem State.finishExtract_textBytes {n : Nat} {image : Image} (hlen : (extractImg n image).2.length < 2 ^ 32) :
    (s.finishExtract n image).textBytes = (extractImg n image).2 := by
  have hout : (s.finishExtract n image).outlen.toNat = (extractImg n image).2.length := by
    rw [State.finishExtract_outlen, BitVec.toNat_ofNat, Nat.mod_eq_of_lt hlen]
  refine List.ext_getElem (by rw [State.textBytes, List.length_map, List.length_range, hout]) fun j _ hj => ?_
  simp [State.textBytes, State.finishExtract_outByte, hj]

/-- A command that runs extract leaves well-formed UTF-8 in OUT[0 .. OUTLEN). -/
theorem commandEffect_textBytes_utf8 {i : Instr} (hruns : runsExtract i = true) (hp : s.params.legal = true)
    (hd : s.validDims) : utf8Valid (commandEffect i s).textBytes = true := by
  obtain ⟨u, image, heffect⟩ := commandEffect_of_runsExtract hruns s
  have hlen : (extractImg s.pixels image).2.length < 2 ^ 32 :=
    (extractImg_length_le_outsz hd image).trans_lt (Params.outsz_lt hp)
  rw [heffect, State.finishExtract_textBytes hlen]
  exact extractImg_utf8 _ _

/-! ### The obligations -/

/-- Settles O9: a step keeps the text, empties it, or replaces it by the text of an extract. -/
theorem recoveredTextStaysUtf8 : Obligations.RecoveredTextStaysUtf8 := by
  intro s t hinv hutf8 hstep
  rcases step_text_cases hstep with hsame | ⟨rest, -, rfl⟩ | ⟨w, i, -, -, hruns, hd, rfl⟩
  · rwa [hsame.textBytes]
  · rw [State.takeReset_textBytes]
    rfl
  · exact commandEffect_textBytes_utf8 hruns hinv.params hd

/-- Settles O49: each kind of step, with what it does to STATUS and to the held word. -/
theorem statusChangesOnlyByItsEvents : Obligations.StatusChangesOnlyByItsEvents := by
  intro s t hstep
  rcases step_cases hstep with ⟨rest, hport, rfl⟩ | ⟨w, i, hdue, -, hexec⟩ | ⟨w, e, hdue, -, rfl⟩ |
    ⟨e, rest, hmove, rfl⟩ | ⟨-, -, rfl⟩
  · exact .inl ⟨rest, hport, rfl, rfl⟩
  · obtain ⟨hengine, e, x, hstatus⟩ := exec_status hexec
    exact .inr (.inl ⟨w, hdue, by rw [hstatus, busyBit_statusDone], by rw [hstatus, doneBit_statusDone], hengine⟩)
  · exact .inr (.inl ⟨w, hdue, busyBit_statusDone _ _, doneBit_statusDone _ _, rfl⟩)
  · rcases State.access_status_cases (s := s) e rest with ⟨hb, w, rfl, hstatus, hengine⟩ | hsame
    · exact .inr (.inr (.inl ⟨w, rest, hmove, hb, hstatus.trans statusBusy_eq, hengine⟩))
    · exact .inr (.inr (.inr hsame))
  · exact .inr (.inr (.inr ⟨rfl, rfl⟩))

/-- Settles O50: only the effect of a command that runs extract writes OUT and OUTLEN, and it has no error. -/
theorem textChangesOnlyByExtract : Obligations.TextChangesOnlyByExtract := by
  intro s t hstep
  rcases step_text_cases hstep with hsame | ⟨rest, hport, -⟩ | ⟨w, i, hdue, hdecode, hruns, -, rfl⟩
  · exact .inl hsame
  · exact .inr (.inl ⟨rest, hport⟩)
  · obtain ⟨x, hstatus⟩ := commandEffect_status i s
    refine .inr (.inr ⟨w, hdue, word_of_runsExtract hdecode hruns, ?_⟩)
    rw [hstatus, errField_statusDone]
    rfl

/-- Settles O51: no completion writes an input, and of the accesses only the writes to the inputs do. -/
theorem inputsChangeOnlyByTheHost : Obligations.InputsChangeOnlyByTheHost := by
  intro s t hstep
  rcases step_cases hstep with ⟨rest, hport, -⟩ | ⟨w, i, -, -, hexec⟩ | ⟨w, e, -, -, rfl⟩ | ⟨e, rest, hmove, rfl⟩ |
    ⟨-, -, rfl⟩
  · exact .inr (.inl ⟨rest, hport⟩)
  · exact .inl (exec_sameInputs hexec)
  · exact .inl (SameInputs.refl s)
  · rcases State.access_inputs_cases (s := s) e rest with hsame | ⟨hb, hwrite⟩
    · exact .inl hsame
    · exact .inr (.inr ⟨hb, e, rest, hmove, hwrite⟩)
  · exact .inl (SameInputs.refl _)

end Sys2Proof.Machine
end

section
/-! PROOFS. What a command's result depends on: the operands of R20 and R27, and the message only when the command runs
embed (R17, R86). -/

namespace Sys2Proof.Machine

variable {i : Instr} {s s' t t' : State}

/-- Two states agree on what the command i reads: KEY, WIDTH, HEIGHT, IMG and the parameters, and MSGLEN and MSG if it runs
embed. -/
structure AgreeOnOperands (i : Instr) (s s' : State) : Prop where
  image : SameImage s s'
  key : s'.key = s.key
  width : s'.width = s.width
  height : s'.height = s.height
  params : s'.params = s.params
  msglen : runsEmbed i = true → s'.msglen = s.msglen
  msgByte : runsEmbed i = true → ∀ j, s'.msgByte j = s.msgByte j

/-- Two completions of the command i report the same: STATUS, IMG and, if it ran extract, the recovered text. -/
def SameResult (i : Instr) (t t' : State) : Prop :=
  t'.status = t.status ∧ SameImage t t' ∧
    (runsExtract i = true → errField t.status = 0 →
      t'.outlen = t.outlen ∧ ∀ j, j < t.outlen.toNat → t'.outByte j = t.outByte j)

theorem SameOperands.agree (i : Instr) (h : SameOperands s s') : AgreeOnOperands i s s' := by
  obtain ⟨⟨hkey, hwidth, hheight, hmsglen, hmsg⟩, himage, hparams⟩ := h
  exact ⟨himage, hkey, hwidth, hheight, hparams, fun _ => hmsglen, fun _ => hmsg⟩

/-! ### The operands are the same -/

namespace AgreeOnOperands

theorem imgByte (h : AgreeOnOperands i s s') : s'.imgByte = s.imgByte :=
  funext h.image

theorem msgByte_eq (h : AgreeOnOperands i s s') (hruns : runsEmbed i = true) : s'.msgByte = s.msgByte :=
  funext (h.msgByte hruns)

theorem pixels (h : AgreeOnOperands i s s') : s'.pixels = s.pixels := by
  simp only [State.pixels, State.w, State.h, h.width, h.height]

theorem samples (h : AgreeOnOperands i s s') : s'.samples = s.samples := by
  rw [State.samples, State.samples, h.pixels]

theorem mlen (h : AgreeOnOperands i s s') (hruns : runsEmbed i = true) : s'.mlen = s.mlen := by
  rw [State.mlen, State.mlen, h.msglen hruns]

theorem payloadBits (h : AgreeOnOperands i s s') (hruns : runsEmbed i = true) : s'.payloadBits = s.payloadBits := by
  rw [State.payloadBits, State.payloadBits, h.mlen hruns]

theorem streamBits (h : AgreeOnOperands i s s') (hruns : runsEmbed i = true) : s'.streamBits = s.streamBits := by
  rw [State.streamBits, State.streamBits, h.payloadBits hruns]

theorem badDim (h : AgreeOnOperands i s s') : s'.badDim = s.badDim := by
  have hw : s'.w = s.w := by rw [State.w, State.w, h.width]
  have hh : s'.h = s.h := by rw [State.h, State.h, h.height]
  rw [State.badDim, State.badDim, hw, hh, h.params, h.pixels]

/-- The first error that applies is the same. -/
theorem operandError (h : AgreeOnOperands i s s') :
    s'.operandError (runsEmbed i) = s.operandError (runsEmbed i) := by
  cases hruns : runsEmbed i with
  | false => simp only [State.operandError, h.badDim, Bool.false_and]
  | true =>
    have hlen : s'.badLen = s.badLen := by rw [State.badLen, State.badLen, h.params, h.mlen hruns]
    have hcap : s'.overCapacity = s.overCapacity := by
      rw [State.overCapacity, State.overCapacity, h.pixels, h.streamBits hruns]
    rw [State.operandError, State.operandError, h.badDim, hlen, hcap]

theorem readStages (h : AgreeOnOperands i s s') : readStages s' = readStages s := by
  rw [Machine.readStages, Machine.readStages, h.key, h.pixels, h.imgByte]

theorem writeStages {stego : Bool} (h : AgreeOnOperands (.wpipe stego) s s') :
    writeStages s' stego = writeStages s stego := by
  rw [Machine.writeStages, Machine.writeStages, h.key, h.pixels, h.imgByte]
  cases stego with
  | false => rfl
  | true => rw [h.payloadBits rfl, h.msgByte_eq rfl]

end AgreeOnOperands

/-! ### The results are the same -/

theorem sameImage_storeImage (h : SameImage s s') (n : Nat) (image : Image) :
    SameImage (s.storeImage n image) (s'.storeImage n image) := fun a => by
  rw [State.storeImage_imgByte, State.storeImage_imgByte, h a]

theorem sameImage_storeSlots (h : SameImage s s') (k : Nat) (image : Image) :
    SameImage (s.storeSlots k image) (s'.storeSlots k image) := fun a => by
  rw [State.storeSlots_imgByte, State.storeSlots_imgByte, h a]

/-- Two completions without an extract, from states with the same image. -/
theorem sameResult_complete (hruns : runsExtract i = false) (h : SameImage s s') (e : ErrCode) (x : ExtractResult) :
    SameResult i (s.complete e x) (s'.complete e x) :=
  ⟨rfl, h, fun hruns' => by rw [hruns] at hruns'; cases hruns'⟩

/-- Two completions with an extract of one and the same image: OUT agrees wherever it holds the recovered text. -/
theorem sameResult_finishExtract (h : SameImage s s') (n : Nat) (image : Image) :
    SameResult i (s.finishExtract n image) (s'.finishExtract n image) := by
  refine ⟨rfl, h, fun _ _ => ⟨rfl, fun j hj => ?_⟩⟩
  have hj : j < (extractImg n image).2.length := by
    rw [State.finishExtract_outlen, BitVec.toNat_ofNat] at hj
    exact Nat.lt_of_lt_of_le hj (Nat.mod_le _ _)
  rw [State.finishExtract_outByte, State.finishExtract_outByte, List.getElem?_eq_getElem hj]
  rfl

/-- The operand check never answers OK. -/
theorem State.operandError_ne_ok {b : Bool} {e : ErrCode} (h : s.operandError b = some e) : errNumber e ≠ 0 := by
  rcases s.operandError_eq_some h with ⟨-, rfl⟩ | ⟨-, -, -, rfl⟩ | ⟨-, -, -, -, rfl⟩ <;> decide

/-- Two raised errors: nothing but STATUS is written, and ERR is not OK. -/
theorem sameResult_raise (h : SameImage s s') {e : ErrCode} (he : errNumber e ≠ 0) :
    SameResult i (s.raise e) (s'.raise e) := by
  refine ⟨rfl, h, fun _ hok => absurd ?_ he⟩
  rwa [State.raise_status, errField_statusDone] at hok

theorem sameResult_commandEffect (h : AgreeOnOperands i s s') :
    SameResult i (commandEffect i s) (commandEffect i s') := by
  cases i with
  | enc | dec | flip =>
    simp only [commandEffect, h.samples, h.pixels, h.key, h.imgByte]
    exact sameResult_complete rfl (sameImage_storeImage h.image _ _) _ _
  | embed =>
    simp only [commandEffect, h.streamBits rfl, h.payloadBits rfl, h.msgByte_eq rfl, h.imgByte]
    exact sameResult_complete rfl (sameImage_storeSlots h.image _ _) _ _
  | extract =>
    simp only [commandEffect, h.pixels, h.imgByte]
    exact sameResult_finishExtract h.image _ _
  | wpipe stego =>
    simp only [commandEffect, h.samples, h.writeStages]
    exact sameResult_complete rfl (sameImage_storeImage h.image _ _) _ _
  | rpipe stego =>
    cases stego with
    | false =>
      simp only [commandEffect, h.samples, h.readStages]
      exact sameResult_complete rfl (sameImage_storeImage h.image _ _) _ _
    | true =>
      simp only [commandEffect, h.samples, h.pixels, h.readStages]
      exact sameResult_finishExtract (sameImage_storeImage h.image _ _) _ _

/-- A command has the same result in two states that agree on its operands. -/
theorem exec_sameResult (h : AgreeOnOperands i s s') :
    ∃ t t', exec i s = .next t ∧ exec i s' = .next t' ∧ SameResult i t t' := by
  refine ⟨_, _, exec_eq i s, exec_eq i s', ?_⟩
  rw [h.operandError]
  cases herror : s.operandError (runsEmbed i) with
  | some e => exact sameResult_raise h.image (State.operandError_ne_ok herror)
  | none => exact sameResult_commandEffect h

/-! ### The obligations -/

/-- Settles O53: the operands fix the result of a command. -/
theorem commandsDependOnlyOnTheirOperands : Obligations.CommandsDependOnlyOnTheirOperands :=
  fun i _ _ h => exec_sameResult (h.agree i)

/-- Settles O54: a command that runs no embed has no message among its operands. -/
theorem messageMattersOnlyToEmbedding : Obligations.MessageMattersOnlyToEmbedding := by
  intro i s s' hruns himage hkey hwidth hheight hparams
  have hno : ¬ runsEmbed i = true := by simp [hruns]
  exact exec_sameResult ⟨himage, hkey, hwidth, hheight, hparams, fun h => absurd h hno, fun h => absurd h hno⟩

end Sys2Proof.Machine
end

section
/-! PROOFS. The memories (R30 to R40): a byte read and a byte write while BUSY = 0, what is left of an access while
BUSY = 1, and the layout of IMG. -/

namespace Sys2Proof.Machine

variable {s : State}

/-! ### One access to a memory -/

/-- A byte read while BUSY = 0 moves the host's side only, and returns the byte that stands there (R38, R39). -/
theorem State.access_readByte_of_idle (hb : s.busy = false) (space : Space) (i : Nat) (rest : List HostEvent) :
    s.access (.readByte space i) rest =
      s.withHostSide (s.busyLeft - 1) rest (.byte (if i < s.spaceSize space then s.byteAt space i else 0)) s.draws := by
  have hnoEffect : ∀ r, (s.deliver r).effect (.readByte space i) = s.deliver r := fun r => by
    simp [State.effect, State.countBusyRead, hb]
  rw [s.access_of_noEffect rest hnoEffect, State.afterEvent_of_ne_wait (by simp)]
  simp [State.answer, State.byteRead, hb]

/-- A byte write leaves the port and does what byteWrite says. -/
theorem State.access_writeByte (space : Space) (i : Nat) (v : Byte) (rest : List HostEvent) :
    s.access (.writeByte space i v) rest = { (s.deliver rest).byteWrite space i v with reply := .nothing } := by
  rw [State.access_eq, State.afterEvent_of_ne_wait (by simp)]
  rfl

/-- While BUSY = 0 a byte write within range is a write to the memory of its space, if that is not OUT (R25, R38, R39). -/
theorem State.byteWrite_of_idle (hb : s.busy = false) (space : Space) (i : Nat) (v : Byte) :
    s.byteWrite space i v =
      { s with
        img := if space = .img ∧ i < 3 * s.params.maxpix then s.img.write i v else s.img
        msg := if space = .msg ∧ i < s.params.msgmax then s.msg.write i v else s.msg } := by
  simp only [State.byteWrite, hb, Bool.false_eq_true, if_false]
  cases space with
  | img => by_cases hi : i < 3 * s.params.maxpix <;> simp [State.spaceSize, hi]
  | msg => by_cases hi : i < s.params.msgmax <;> simp [State.spaceSize, hi]
  | out => exact ite_self s

/-- A read after a write that is made only under a condition. -/
theorem Memory.get?_ite_write (p : Prop) [Decidable p] (m : Memory) (i : Nat) (v : Byte) (a : Nat) :
    (if p then m.write i v else m).get? a = if p ∧ a = i then some v else m.get? a := by
  by_cases hp : p
  · simp [hp, Memory.get?_write]
  · simp [hp]

/-- The bytes of IMG after a byte write: within range the byte it names takes the value. -/
theorem State.byteWrite_imgByte (hb : s.busy = false) (space : Space) (i : Nat) (v : Byte) (a : Nat) :
    (s.byteWrite space i v).imgByte a =
      if space = .img ∧ i < 3 * s.params.maxpix ∧ a = i then v else s.imgByte a := by
  rw [State.byteWrite_of_idle hb]
  simp only [State.imgByte, Memory.get?_ite_write, and_assoc]
  split <;> rfl

/-- The bytes of MSG after a byte write: within range the byte it names takes the value. -/
theorem State.byteWrite_msgByte (hb : s.busy = false) (space : Space) (i : Nat) (v : Byte) (j : Nat) :
    (s.byteWrite space i v).msgByte j =
      if space = .msg ∧ i < s.params.msgmax ∧ j = i then v else s.msgByte j := by
  rw [State.byteWrite_of_idle hb]
  simp only [State.msgByte, Memory.get?_ite_write, and_assoc]
  split <;> rfl

/-! ### The steps -/

/-- A byte read while BUSY = 0 changes nothing of the block. -/
theorem step_of_readByte {space : Space} {i : Nat} {rest : List HostEvent} (hb : s.busy = false)
    (h : s.hostMoves (.readByte space i) rest) :
    ∃ t, step s = .next t ∧ t.port = rest ∧ SameBlock s t ∧
      t.reply = .byte (if i < s.spaceSize space then s.byteAt space i else 0) := by
  refine ⟨_, step_of_hostMoves h, ?_⟩
  rw [State.access_readByte_of_idle hb]
  exact ⟨rfl, s.withHostSide_sameBlock _ _ _ _, rfl⟩

/-- No access changes the block while BUSY = 1, and each gets its answer (R40). -/
theorem step_of_hostMoves_busy {e : HostEvent} {rest : List HostEvent} (hb : s.busy = true) (h : s.hostMoves e rest) :
    ∃ t, step s = .next t ∧ SameBlock s t ∧ t.reply = s.answer e := by
  obtain ⟨d, haccess⟩ := s.access_of_busy hb e rest
  refine ⟨_, step_of_hostMoves h, ?_⟩
  rw [haccess]
  exact ⟨s.withHostSide_sameBlock _ _ _ _, rfl⟩

/-- Of the ten values of STATUS only 0x001 has BUSY = 1 (R13). -/
theorem eq_one_of_mem_legalStatus : ∀ st ∈ legalStatus, busyBit st = true → st = 0x001 := by
  simp [legalStatus, busyBit]

theorem State.Inv.status_of_busy (h : s.Inv) (hb : s.busy = true) : s.status = 0x001 :=
  eq_one_of_mem_legalStatus s.status h.status hb

/-! ### The layout of IMG -/

/-- The pixel of a byte index is the one its samples start at, three to a pixel (R32). -/
theorem addr_pixelOf_channelOf (w a : Nat) : addr w (pixelOf a % w) (pixelOf a / w) (channelOf a) = a := by
  have hpixel : pixelOf a / w * w + pixelOf a % w = pixelOf a := Nat.div_add_mod' _ _
  rw [addr, hpixel, pixelOf, channelOf]
  exact Nat.div_add_mod a 3

theorem pixelOf_addr {w x y c : Nat} (hc : c < 3) : pixelOf (addr w x y c) = y * w + x := by
  unfold pixelOf addr
  omega

theorem channelOf_addr {w x y c : Nat} (hc : c < 3) : channelOf (addr w x y c) = c := by
  unfold channelOf addr
  omega

/-- A byte index below 3n belongs to one of the first n pixels. -/
theorem pixelOf_lt {n a : Nat} (h : a < 3 * n) : pixelOf a < n :=
  Nat.div_lt_of_lt_mul h

/-- Flat indices in row order: the pixel at column x and row y of a w × h grid is one of its first w × h pixels. -/
theorem flatIndex_lt {w h x y : Nat} (hx : x < w) (hy : y < h) : y * w + x < w * h :=
  calc y * w + x < y * w + w := Nat.add_lt_add_left hx _
    _ = (y + 1) * w := (Nat.succ_mul y w).symm
    _ ≤ h * w := Nat.mul_le_mul_right w hy
    _ = w * h := Nat.mul_comm h w

/-! ### The obligations -/

/-- Settles O16: the three spaces are one rule, with the size and the bytes of each. -/
theorem memoryReadReturnsTheByte : Obligations.MemoryReadReturnsTheByte := by
  intro s i rest hb
  refine ⟨step_of_readByte hb, step_of_readByte hb, fun hmove => ?_⟩
  rw [← s.params.outsz_eq]
  exact step_of_readByte hb hmove

/-- Settles O17: byteWrite in closed form names the one byte, and all else is as it was. -/
theorem memoryWriteChangesOneByte : Obligations.MemoryWriteChangesOneByte := by
  intro s space i v rest hb hmove
  have himg := State.byteWrite_imgByte (s := s.deliver rest) hb space i v
  have hmsg := State.byteWrite_msgByte (s := s.deliver rest) hb space i v
  refine ⟨_, step_of_hostMoves hmove, ?_⟩
  rw [State.access_writeByte]
  rw [State.byteWrite_of_idle (s := s.deliver rest) hb] at himg hmsg ⊢
  exact ⟨rfl, rfl, himg, hmsg, ⟨rfl, fun _ => rfl⟩, rfl, rfl, rfl, rfl, rfl, rfl, rfl⟩

/-- Settles O18: no access changes the block, and by the invariant the STATUS that a read returns is 0x001. -/
theorem busyBlockIgnoresTheHost : Obligations.BusyBlockIgnoresTheHost := by
  intro s e rest hinv hb hmove
  obtain ⟨t, hstep, hsame, hreply⟩ := step_of_hostMoves_busy hb hmove
  refine ⟨t, hstep, hsame, ?readCsr, ?readByte⟩
  case readCsr =>
    rintro n rfl
    have hvalue := s.csrRead_toNat n
    rw [hinv.status_of_busy hb] at hvalue
    exact ⟨s.csrRead n, hreply, hvalue⟩
  case readByte =>
    rintro space i rfl
    exact ⟨s.byteRead space i, hreply⟩

/-- Settles O37: a byte index is three times a flat index plus a channel, and a flat index is W times a row plus a
column; each is a division with remainder. -/
theorem imageLayoutIsInvertible : Obligations.ImageLayoutIsInvertible := by
  constructor
  · intro w h a ha
    have hpixel : pixelOf a < w * h := pixelOf_lt ha
    have hw : 0 < w := Nat.pos_of_mul_pos_right (Nat.zero_lt_of_lt hpixel)
    exact ⟨Nat.mod_lt _ hw, Nat.div_lt_of_lt_mul hpixel, Nat.mod_lt _ (by decide), addr_pixelOf_channelOf w a⟩
  · intro w h x y c hx hy hc
    have hflat := flatIndex_lt hx hy
    have hw : 0 < w := Nat.zero_lt_of_lt hx
    refine ⟨?bound, pixelOf_addr hc, channelOf_addr hc, ?column, ?row⟩
    case bound =>
      unfold addr
      omega
    case column => rw [pixelOf_addr hc, Nat.mul_add_mod', Nat.mod_eq_of_lt hx]
    case row => rw [pixelOf_addr hc, Nat.mul_comm, Nat.mul_add_div hw, Nat.div_eq_of_lt hx, Nat.add_zero]

end Sys2Proof.Machine
end

section
/-! PROOFS. The encoding (R50 to R57): decode and encode are inverse, the legal words are exactly the nine of the table,
what becomes of an illegal word, and the poll. -/

namespace Sys2Proof

/-! ### The fields as numbers -/

theorem reservedField_eq_zero_iff (w : Word) : reservedField w = 0 ↔ w.toNat / 512 = 0 := by
  rw [← BitVec.toNat_inj, reservedField_toNat]
  rfl

theorem opcField_eq_iff (w : Word) (opc : BitVec 8) : opcField w = opc ↔ w.toNat % 256 = opc.toNat := by
  rw [← BitVec.toNat_inj, opcField_toNat]

/-- The commands without an S bit are accepted with S = 0 only (R52). -/
theorem withoutStego_toOption (i : Instr) (w : Word) :
    (withoutStego i w).toOption = if w.toNat / 256 % 2 = 0 then some i else none := by
  rw [withoutStego, stegoField_eq]
  rcases Nat.mod_two_eq_zero_or_one (w.toNat / 256) with h | h <;> simp [h, Except.toOption]

/-! ### decode and encode -/

/-- A command is what its own word decodes to (R55). -/
@[simp] theorem decode_encode (i : Instr) : decode (encode i) = .ok i := by
  cases i <;> simp [decode, encode, withoutStego]

/-- The accepted words are the encoded ones (R55). -/
theorem decode_eq_ok_iff {w : Word} {i : Instr} : decode w = .ok i ↔ w = encode i := by
  constructor
  · exact fun h => (encode_eq_of_decode h).symm
  · rintro rfl
    exact decode_encode i

/-- A legal word is one of nine numbers, and each is the encoding of a command (R51, R54). -/
theorem exists_eq_encode_of_legal {w : Word} (h : legalWord w = true) : ∃ i, w = encode i := by
  have hnine : w.toNat = 1 ∨ w.toNat = 2 ∨ w.toNat = 3 ∨ w.toNat = 4 ∨ w.toNat = 5 ∨ w.toNat = 6 ∨
      w.toNat = 256 + 6 ∨ w.toNat = 7 ∨ w.toNat = 256 + 7 := by
    simp only [legalWord, Bool.and_eq_true, Bool.or_eq_true, decide_eq_true_eq] at h
    omega
  rcases hnine with hw | hw | hw | hw | hw | hw | hw | hw | hw
  · exact ⟨.enc, BitVec.eq_of_toNat_eq hw⟩
  · exact ⟨.dec, BitVec.eq_of_toNat_eq hw⟩
  · exact ⟨.flip, BitVec.eq_of_toNat_eq hw⟩
  · exact ⟨.embed, BitVec.eq_of_toNat_eq hw⟩
  · exact ⟨.extract, BitVec.eq_of_toNat_eq hw⟩
  · exact ⟨.wpipe false, BitVec.eq_of_toNat_eq hw⟩
  · exact ⟨.wpipe true, BitVec.eq_of_toNat_eq hw⟩
  · exact ⟨.rpipe false, BitVec.eq_of_toNat_eq hw⟩
  · exact ⟨.rpipe true, BitVec.eq_of_toNat_eq hw⟩

/-- The decoder rejects exactly the words that are not legal (R54). -/
theorem legalWord_eq_false_iff (w : Word) : legalWord w = false ↔ ∃ e, decode w = .error e := by
  refine ⟨decode_error_of_not_legal, fun ⟨e, he⟩ => ?_⟩
  rw [← Bool.not_eq_true]
  intro hlegal
  obtain ⟨i, rfl⟩ := exists_eq_encode_of_legal hlegal
  rw [decode_encode] at he
  cases he

end Sys2Proof

namespace Sys2Proof.Machine

variable {s : State}

/-! ### The poll -/

/-- A poll is made again while BUSY = 1 (R57). -/
@[simp] theorem State.afterEvent_wait (rest : List HostEvent) :
    s.afterEvent .wait rest = if s.busy then .wait :: rest else rest := by
  simp [State.afterEvent]

/-- A poll moves the host's side only, and returns STATUS (R57). -/
theorem State.access_wait (rest : List HostEvent) :
    s.access .wait rest =
      s.withHostSide (s.busyLeft - 1) (if s.busy then .wait :: rest else rest) (.word s.status) s.draws := by
  rw [s.access_of_noEffect rest fun _ => rfl, State.afterEvent_wait]
  rfl

/-! ### The obligations -/

/-- Settles O3: both inverses are one equivalence, and the decoder's branches are R55's, read as numbers. -/
theorem decodingInvertsEncoding : Obligations.DecodingInvertsEncoding := by
  refine ⟨decode_encode, fun _ _ => encode_eq_of_decode, fun w => ?_⟩
  unfold decode
  simp only [apply_ite Except.toOption, withoutStego_toOption, ne_eq, reservedField_eq_zero_iff, opcField_eq_iff,
    stegoField_eq]
  -- what is left is the operation codes as numerals and toOption of the outcomes
  rfl

/-- Settles O2: the table lists each command with its encoded word, and the accepted words are the encoded ones. -/
theorem exactlyTheNineWordsAreCommands : Obligations.ExactlyTheNineWordsAreCommands := by
  intro w i
  rw [decode_eq_ok_iff]
  cases i with
  | wpipe stego => cases stego <;> simp [encode, commandWord]
  | rpipe stego => cases stego <;> simp [encode, commandWord]
  | _ => simp [encode, commandWord]

/-- Settles O4: legality is acceptance by the decoder, the accept event asks for no legal word, and a rejected word
raises an error, which writes STATUS only. -/
theorem illegalWordsCompleteWithIllegalCmd : Obligations.IllegalWordsCompleteWithIllegalCmd := by
  refine fun w => ⟨legalWord_eq_false_iff w, fun s rest hb hmove => ?accept, fun hillegal s hdue => ?complete⟩
  case accept => exact ⟨_, step_of_writeCmd hmove hb, statusBusy_eq, rfl⟩
  case complete =>
    obtain ⟨e, he⟩ := decode_error_of_not_legal hillegal
    rw [← statusDone_illegalCmd]
    exact ⟨_, step_of_completes_error hdue he, raise_onlyStatus s .illegalCmd⟩

/-- Settles O1: the five words stand in the table of nine. -/
theorem commandWordsDecodeAsListed : Obligations.CommandWordsDecodeAsListed := by
  have htable := exactlyTheNineWordsAreCommands
  refine ⟨(htable _ _).2 ?_, (htable _ _).2 ?_, (htable _ _).2 ?_, (htable _ _).2 ?_, (htable _ _).2 ?_⟩ <;> simp

/-- Settles O19: a poll has no effect on the block and answers STATUS. -/
theorem waitPollsStatus : Obligations.WaitPollsStatus := by
  intro s rest hmove
  refine ⟨_, step_of_hostMoves hmove, ?_⟩
  rw [State.access_wait]
  exact ⟨rfl, s.withHostSide_sameBlock _ _ _ _, rfl⟩

end Sys2Proof.Machine
end

section
/-! PROOFS. The cipher (R60 to R65): the adder modulo 256, the reduction of a signed key, and ENC and DEC, which are one
rule and undo each other. -/

namespace Sys2Proof.Machine

variable {s : State}

/-! ### The adder -/

/-- Adding modulo 256 (R60). -/
theorem madd8_add_toNat (v k : Byte) : (madd8 v k false).toNat = (v.toNat + k.toNat) % 256 :=
  BitVec.toNat_add v k

/-- Subtracting modulo 256: the residue of the difference of integers, never negative (R60). -/
theorem madd8_sub_toNat (v k : Byte) : ((madd8 v k true).toNat : Int) = ((v.toNat : Int) - k.toNat) % 256 := by
  have hk := k.isLt
  have hsub : (madd8 v k true).toNat = (256 - k.toNat + v.toNat) % 256 := BitVec.toNat_sub v k
  omega

/-- Subtracting what was added, or adding what was subtracted, gives the sample back (R64). -/
@[simp] theorem madd8_madd8_not (v k : Byte) (sub : Bool) : madd8 (madd8 v k sub) k (!sub) = v := by
  cases sub with
  | false => exact BitVec.add_sub_cancel v k
  | true => exact BitVec.sub_add_cancel v k

theorem madd8_bijective (k : Byte) (sub : Bool) : Function.Bijective fun v => madd8 v k sub := by
  refine Function.bijective_iff_has_inverse.2 ⟨fun v => madd8 v k (!sub), fun v => madd8_madd8_not v k sub, fun v => ?_⟩
  simpa using madd8_madd8_not v k (!sub)

/-- No carry comes into bit 0 (R65). -/
theorem madd8_add_bit0 (v k : Byte) : (madd8 v k false).getLsbD 0 = (v.getLsbD 0 ^^ k.getLsbD 0) := by
  have hsum : (v + k).getLsbD 0 = (v.getLsbD 0 ^^ (k.getLsbD 0 ^^ BitVec.carry 0 v k false)) :=
    BitVec.getLsbD_add (by decide) v k
  rwa [BitVec.carry_zero, Bool.xor_false] at hsum

/-! ### The key -/

/-- The low 8 bits of a two's complement number of at least 8 bits are its residue modulo 256 (R61). -/
theorem ofInt_toNat_mod_256 {n : Nat} (hn : 8 ≤ n) (key : Int) :
    (((BitVec.ofInt n key).toNat % 256 : Nat) : Int) = key % 256 := by
  have hdvd : (256 : Int) ∣ 2 ^ n := pow_dvd_pow 2 hn
  rw [Int.natCast_emod, BitVec.toNat_ofInt, Int.toNat_of_nonneg (Int.emod_nonneg key (by positivity))]
  exact Int.emod_emod_of_dvd key hdvd

/-- Adding or subtracting the residue of an integer modulo 256 is adding or subtracting the integer (R61). -/
theorem madd8_of_residue {k : Byte} {key : Int} (hk : (k.toNat : Int) = key % 256) (v : Byte) :
    ((madd8 v k false).toNat : Int) = ((v.toNat : Int) + key) % 256 ∧
      ((madd8 v k true).toNat : Int) = ((v.toNat : Int) - key) % 256 := by
  rw [madd8_sub_toNat, madd8_add_toNat]
  omega

/-! ### ENC and DEC as one command -/

/-- The command that sends every sample through the adder: ENC to add, DEC to subtract (R62, R63). -/
def cipherCommand : Bool → Instr
  | false => .enc
  | true => .dec

@[simp] theorem runsEmbed_cipherCommand (sub : Bool) : runsEmbed (cipherCommand sub) = false := by
  cases sub <;> rfl

@[simp] theorem runsExtract_cipherCommand (sub : Bool) : runsExtract (cipherCommand sub) = false := by
  cases sub <;> rfl

theorem commandEffect_cipherCommand (sub : Bool) (s : State) :
    commandEffect (cipherCommand sub) s =
      (s.storeImage s.samples fun a => madd8 (s.imgByte a) s.key sub).complete .ok .none := by
  cases sub <;> rfl

/-- Every sample goes through the adder, and IMG beyond the image stays. -/
theorem commandEffect_cipherCommand_imgByte (sub : Bool) (s : State) (a : Nat) :
    (commandEffect (cipherCommand sub) s).imgByte a =
      if a < s.samples then madd8 (s.imgByte a) s.key sub else s.imgByte a := by
  rw [commandEffect_cipherCommand, State.complete_imgByte, State.storeImage_imgByte]

/-- With valid dimensions ENC or DEC has its effect. -/
theorem exec_cipherCommand (sub : Bool) (hd : s.validDims) :
    exec (cipherCommand sub) s = .next (commandEffect (cipherCommand sub) s) :=
  exec_of_valid _ hd (by simp)

theorem statusDone_ok : statusDone .ok .none = 0x002 := by decide

/-- What ENC and DEC change, and what they leave alone (R62, R63). -/
theorem exec_cipherCommand_frame (sub : Bool) (hd : s.validDims) :
    ∃ t, exec (cipherCommand sub) s = .next t ∧ t.status = 0x002 ∧ t.engine = none ∧
      (∀ a, a < 3 * (s.w * s.h) → t.imgByte a = madd8 (s.imgByte a) s.key sub) ∧
      SameImageFrom (3 * (s.w * s.h)) s t ∧ SameInputs s t ∧ SameText s t ∧ SameSurroundings s t := by
  obtain ⟨hinputs, hsurroundings, hengine, -⟩ := commandEffect_frame (cipherCommand sub) s
  refine ⟨_, exec_cipherCommand sub hd, ?status, hengine, fun a ha => ?sample, fun a ha => ?beyond, hinputs,
    commandEffect_sameText (runsExtract_cipherCommand sub) s, hsurroundings⟩
  case status => rw [commandEffect_cipherCommand, State.complete_status, statusDone_ok]
  case sample => exact (commandEffect_cipherCommand_imgByte sub s a).trans (if_pos ha)
  case beyond => exact (commandEffect_cipherCommand_imgByte sub s a).trans (if_neg (Nat.not_lt.2 ha))

/-! ### Bad dimensions -/

theorem statusDone_badDim : statusDone .badDim .none = 0x022 := by decide

/-- With bad dimensions every command reports BAD_DIM and changes nothing else (R93). -/
theorem exec_of_not_validDims (i : Instr) (hd : ¬ s.validDims) :
    ∃ t, exec i s = .next t ∧ OnlyStatus 0x022 s t := by
  have hbad : s.badDim = true := by rwa [← Bool.not_eq_false, State.badDim_eq_false_iff]
  have herror : s.operandError (runsEmbed i) = some .badDim := by rw [State.operandError, if_pos hbad]
  rw [← statusDone_badDim]
  exact ⟨_, exec_of_error i herror, raise_onlyStatus s .badDim⟩

/-! ### ENC and DEC undo each other -/

/-- A command changes neither the dimensions nor the parameters. -/
theorem commandEffect_validDims {i : Instr} (hd : s.validDims) : (commandEffect i s).validDims := by
  obtain ⟨⟨-, hwidth, hheight, -, -⟩, ⟨hparams, -⟩, -⟩ := commandEffect_frame i s
  simpa only [State.validDims, State.pixels, State.w, State.h, hwidth, hheight, hparams] using hd

/-- The one of ENC and DEC after the other gives every byte of IMG back (R64). -/
theorem commandEffect_cipherCommand_not (sub : Bool) (s : State) :
    SameImage s (commandEffect (cipherCommand !sub) (commandEffect (cipherCommand sub) s)) := fun a => by
  have hkey : (commandEffect (cipherCommand sub) s).key = s.key := by rw [commandEffect_cipherCommand]; rfl
  have hsamples : (commandEffect (cipherCommand sub) s).samples = s.samples := by rw [commandEffect_cipherCommand]; rfl
  rw [commandEffect_cipherCommand_imgByte, commandEffect_cipherCommand_imgByte, hkey, hsamples]
  by_cases ha : a < s.samples
  · rw [if_pos ha, if_pos ha, madd8_madd8_not]
  · rw [if_neg ha, if_neg ha]

/-- ENC and DEC undo each other whatever the host does in between to all but W, H, KEY and IMG: the second command has the
result it would have had at once (R64). -/
theorem exec_cipherCommand_roundTrip (sub : Bool) (hd : s.validDims) :
    ∃ t, exec (cipherCommand sub) s = .next t ∧ ∀ t' : State, SameImage t t' → t'.width = t.width →
      t'.height = t.height → t'.key = t.key → t'.params = t.params →
      ∃ u, exec (cipherCommand !sub) t' = .next u ∧ SameImage s u := by
  refine ⟨_, exec_cipherCommand sub hd, fun t' himage hwidth hheight hkey hparams => ?_⟩
  have hagree : AgreeOnOperands (cipherCommand !sub) (commandEffect (cipherCommand sub) s) t' :=
    ⟨himage, hkey, hwidth, hheight, hparams, by simp, by simp⟩
  obtain ⟨v, u, hv, hu, -, hsame, -⟩ := exec_sameResult hagree
  rw [exec_cipherCommand _ (commandEffect_validDims hd)] at hv
  cases hv
  exact ⟨u, hu, fun a => (hsame a).trans (commandEffect_cipherCommand_not sub s a)⟩

/-! ### The obligations -/

/-- Settles O29: a write to KEY keeps the low 8 bits of the word, which are the residue on any width. -/
theorem keyIsReducedModulo256 : Obligations.KeyIsReducedModulo256 := by
  constructor
  · intro n key hn
    rw [BitVec.toNat_setWidth]
    exact ofInt_toNat_mod_256 hn key
  · intro s key rest hb hmove
    obtain ⟨t, hstep, -, -, hwritten, -⟩ := registerWriteTakesItsField s 2 _ rest hmove hb (by decide)
    rw [if_pos rfl] at hwritten
    have hkey : (t.key.toNat : Int) = key % 256 := by
      rw [hwritten]
      exact ofInt_toNat_mod_256 (by decide) key
    exact ⟨t, hstep, hkey, madd8_of_residue hkey⟩

/-- Settles O30: ENC is the cipher command that adds. -/
theorem encAddsTheKey : Obligations.EncAddsTheKey := by
  refine ⟨decode_encode .enc, fun s => ⟨exec_of_not_validDims .enc, fun hd => ?_⟩⟩
  obtain ⟨t, hexec, hstatus, hengine, hsample, hframe⟩ := exec_cipherCommand_frame false hd
  exact ⟨t, hexec, hstatus, hengine, fun a ha => by rw [hsample a ha, madd8_add_toNat], hframe⟩

/-- Settles O31: DEC is the cipher command that subtracts. -/
theorem decSubtractsTheKey : Obligations.DecSubtractsTheKey := by
  refine ⟨decode_encode .dec, fun s => ⟨exec_of_not_validDims .dec, fun hd => ?_⟩⟩
  obtain ⟨t, hexec, hstatus, hengine, hsample, hframe⟩ := exec_cipherCommand_frame true hd
  exact ⟨t, hexec, hstatus, hengine, fun a ha => by rw [hsample a ha, madd8_sub_toNat], hframe⟩

/-- Settles O32: the adder's round trip on each sample, lifted to the two commands. -/
theorem cipherRoundTrip : Obligations.CipherRoundTrip :=
  ⟨fun v k => ⟨madd8_madd8_not v k false, madd8_madd8_not v k true⟩, madd8_bijective,
    fun _ hd => ⟨exec_cipherCommand_roundTrip false hd, exec_cipherCommand_roundTrip true hd⟩⟩

/-- Settles O33: bit 0 of a sum is the exclusive or of the bits 0. -/
theorem encFlipsParityExactlyForOddKeys : Obligations.EncFlipsParityExactlyForOddKeys := by
  intro s hd
  obtain ⟨t, hexec, -, -, hsample, -⟩ := exec_cipherCommand_frame false hd
  exact ⟨t, hexec, fun a ha => by rw [hsample a ha, madd8_add_bit0]⟩

/-- Settles O28: the two residues, the truncated 9-bit sum, and the complement of k. -/
theorem modularAdderIsTrueModulo : Obligations.ModularAdderIsTrueModulo := by
  refine fun v k => ⟨madd8_add_toNat v k, madd8_sub_toNat v k, ?carry, ?complement⟩
  case carry => simp [madd8, BitVec.setWidth_add]
  case complement =>
    by_cases hzero : k = 0
    · simp [madd8, hzero]
    · rw [if_neg hzero]
      apply BitVec.eq_of_toNat_eq
      have hk := k.isLt
      have hsub := madd8_sub_toNat v k
      rw [BitVec.toNat_ofNat]
      omega

end Sys2Proof.Machine
end

section
/-! PROOFS. The permutation (R66 to R69): FLIP reads IMG through one map of its byte indices, which is its own inverse. -/

namespace Sys2Proof.Machine

variable {s : State} {n a : Nat}

/-! ### The reflection of the byte indices -/

/-- FLIP's map of the byte indices of IMG, for n pixels: below 3n the pixel is reflected and the channel kept, and the
indices beyond the image stay (R66, R67). -/
def reflectIndex (n a : Nat) : Nat :=
  if a < 3 * n then 3 * flipPixel n (pixelOf a) + channelOf a else a

/-- A sample goes to the same channel of the reflected pixel. -/
theorem reflectIndex_sample {p c : Nat} (hp : p < n) (hc : c < 3) :
    reflectIndex n (3 * p + c) = 3 * (n - 1 - p) + c := by
  unfold reflectIndex flipPixel pixelOf channelOf
  rw [if_pos (by omega)]
  omega

theorem reflectIndex_of_le (ha : 3 * n ≤ a) : reflectIndex n a = a :=
  if_neg (Nat.not_lt.2 ha)

/-- The image and what lies beyond it are each mapped to themselves. -/
theorem reflectIndex_lt_iff : reflectIndex n a < 3 * n ↔ a < 3 * n := by
  unfold reflectIndex flipPixel pixelOf channelOf
  split <;> omega

/-- The reflection is its own inverse (R66). -/
@[simp] theorem reflectIndex_reflectIndex (n a : Nat) : reflectIndex n (reflectIndex n a) = a := by
  by_cases ha : a < 3 * n
  · have hpixel : pixelOf a < n := pixelOf_lt ha
    have hchannel : channelOf a < 3 := Nat.mod_lt _ (by decide)
    have hsplit : 3 * pixelOf a + channelOf a = a := Nat.div_add_mod a 3
    rw [← hsplit, reflectIndex_sample hpixel hchannel, reflectIndex_sample (by omega) hchannel]
    omega
  · rw [reflectIndex_of_le (Nat.not_lt.1 ha), reflectIndex_of_le (Nat.not_lt.1 ha)]

/-- The reflected flat index is that of the column and the row counted from the other end (R66). -/
theorem reflected_flatIndex {w h x y : Nat} (hx : x < w) (hy : y < h) :
    w * h - 1 - (y * w + x) = (h - 1 - y) * w + (w - 1 - x) := by
  have hrows : y * w + (h - 1 - y) * w + w = w * h := by
    rw [← Nat.add_mul, ← Nat.succ_mul, show (y + (h - 1 - y)).succ = h by omega, Nat.mul_comm]
  omega

/-- In coordinates the reflection is the one through the centre of the image (R67). -/
theorem reflectIndex_addr {w h x y c : Nat} (hx : x < w) (hy : y < h) (hc : c < 3) :
    reflectIndex (w * h) (addr w x y c) = addr w (w - 1 - x) (h - 1 - y) c := by
  unfold addr
  rw [reflectIndex_sample (flatIndex_lt hx hy) hc, reflected_flatIndex hx hy]

/-! ### FLIP through the reflection -/

/-- Every byte of IMG after FLIP is the byte that stood at the reflected index. -/
theorem commandEffect_flip_imgByte (s : State) (a : Nat) :
    (commandEffect .flip s).imgByte a = s.imgByte (reflectIndex s.pixels a) := by
  rw [commandEffect, State.complete_imgByte, State.storeImage_imgByte]
  exact (apply_ite s.imgByte _ _ _).symm

/-- With valid dimensions FLIP has its effect. -/
theorem exec_flip (hd : s.validDims) : exec .flip s = .next (commandEffect .flip s) :=
  exec_of_valid .flip hd (by simp [runsEmbed])

/-- What FLIP changes, by the place each byte goes to, and what it leaves alone (R67). -/
theorem exec_flip_frame (hd : s.validDims) :
    ∃ t, exec .flip s = .next t ∧ t.status = 0x002 ∧ t.engine = none ∧
      (∀ a, t.imgByte (reflectIndex (s.w * s.h) a) = s.imgByte a) ∧
      SameImageFrom (3 * (s.w * s.h)) s t ∧ SameInputs s t ∧ SameText s t ∧ SameSurroundings s t := by
  obtain ⟨hinputs, hsurroundings, hengine, -⟩ := commandEffect_frame .flip s
  refine ⟨_, exec_flip hd, statusDone_ok, hengine, fun a => ?moved, fun a ha => ?beyond, hinputs,
    commandEffect_sameText rfl s, hsurroundings⟩
  case moved => rw [commandEffect_flip_imgByte, State.pixels, reflectIndex_reflectIndex]
  case beyond => rw [commandEffect_flip_imgByte, State.pixels, reflectIndex_of_le ha]

/-! ### FLIP and the cipher -/

@[simp] theorem commandEffect_key (i : Instr) (s : State) : (commandEffect i s).key = s.key := by
  obtain ⟨⟨hkey, -⟩, -⟩ := commandEffect_frame i s
  exact hkey

@[simp] theorem commandEffect_pixels (i : Instr) (s : State) : (commandEffect i s).pixels = s.pixels := by
  obtain ⟨⟨-, hwidth, hheight, -⟩, -⟩ := commandEffect_frame i s
  simp only [State.pixels, State.w, State.h, hwidth, hheight]

@[simp] theorem commandEffect_samples (i : Instr) (s : State) : (commandEffect i s).samples = s.samples := by
  rw [State.samples, State.samples, commandEffect_pixels]

/-- The cipher treats every sample alike, so it does not matter whether a sample is moved before or after (R69). -/
theorem commandEffect_flip_cipherCommand (sub : Bool) (s : State) :
    SameImage (commandEffect .flip (commandEffect (cipherCommand sub) s))
      (commandEffect (cipherCommand sub) (commandEffect .flip s)) := fun a => by
  have hinside : reflectIndex s.pixels a < s.samples ↔ a < s.samples := reflectIndex_lt_iff
  simp only [commandEffect_flip_imgByte, commandEffect_cipherCommand_imgByte, commandEffect_key, commandEffect_pixels,
    commandEffect_samples, hinside]

/-- FLIP commutes with ENC and with DEC, as commands. -/
theorem exec_flip_cipherCommand (sub : Bool) (hd : s.validDims) :
    ∃ a b c d, exec (cipherCommand sub) s = .next a ∧ exec .flip a = .next b ∧ exec .flip s = .next c ∧
      exec (cipherCommand sub) c = .next d ∧ SameImage b d :=
  ⟨_, _, _, _, exec_cipherCommand sub hd, exec_flip (commandEffect_validDims hd), exec_flip hd,
    exec_cipherCommand sub (commandEffect_validDims hd), commandEffect_flip_cipherCommand sub s⟩

/-! ### The obligations -/

/-- Settles O34: the reflection of the byte indices, in flat indices and in coordinates. -/
theorem flipReflectsEveryPixel : Obligations.FlipReflectsEveryPixel := by
  refine ⟨decode_encode .flip, fun s => ⟨exec_of_not_validDims .flip, fun hd => ?_⟩⟩
  obtain ⟨t, hexec, hstatus, hengine, hmoved, hframe⟩ := exec_flip_frame hd
  refine ⟨t, hexec, hstatus, hengine, fun p c hp hc => ?flat, fun x y c hx hy hc => ?coordinates, hframe⟩
  case flat => rw [← reflectIndex_sample hp hc, hmoved]
  case coordinates => rw [← reflectIndex_addr hx hy hc, hmoved]

/-- Settles O35: the second FLIP reads through the same reflection, which is its own inverse. -/
theorem flipTwiceRestores : Obligations.FlipTwiceRestores := by
  refine fun s hd => ⟨_, exec_flip hd, fun t' himage hwidth hheight hparams => ?_⟩
  have hpixels : t'.pixels = s.pixels := by
    rw [← commandEffect_pixels .flip s]
    simp only [State.pixels, State.w, State.h, hwidth, hheight]
  have hd' : t'.validDims := by
    simpa only [State.validDims, State.pixels, State.w, State.h, hwidth, hheight, hparams] using
      commandEffect_validDims (i := .flip) hd
  refine ⟨_, exec_flip hd', fun a => ?_⟩
  rw [commandEffect_flip_imgByte, hpixels, himage, commandEffect_flip_imgByte, reflectIndex_reflectIndex]

/-- Settles O36: ENC and DEC are the two cipher commands, and FLIP commutes with each. -/
theorem flipCommutesWithTheCipher : Obligations.FlipCommutesWithTheCipher := by
  rintro s hd i (rfl | rfl)
  · exact exec_flip_cipherCommand false hd
  · exact exec_flip_cipherCommand true hd

end Sys2Proof.Machine
end

section
/-! PROOFS. UTF-8 validity (R80): the validator accepts exactly the concatenations of groups that match one of the nine
forms. -/

namespace Sys2Proof.Machine

/-- One row of R80's table: the range of the first byte, and those of the bytes after it. -/
abbrev Utf8Form := (Nat × Nat) × List (Nat × Nat)

/-- The byte sequence g is one group: each byte in the range that one of the nine forms has at its place (R80). -/
def IsUtf8Group (g : List Byte) : Prop :=
  ∃ f ∈ utf8Forms, List.Forall₂ (fun r b => inRange r b = true) (f.1 :: f.2) g

theorem inRange_iff {r : Nat × Nat} {b : Byte} : inRange r b = true ↔ r.1 ≤ b.toNat ∧ b.toNat ≤ r.2 := by
  simp [inRange]

/-! ### The first byte names the form -/

/-- No first byte belongs to two forms: their first ranges are disjoint. -/
theorem utf8Forms_disjoint : ∀ f ∈ utf8Forms, ∀ g ∈ utf8Forms, f = g ∨ f.1.2 < g.1.1 ∨ g.1.2 < f.1.1 := by
  decide

theorem utf8Forms_eq_of_inRange {f g : Utf8Form} {b : Byte} (hf : f ∈ utf8Forms) (hg : g ∈ utf8Forms)
    (hfb : inRange f.1 b = true) (hgb : inRange g.1 b = true) : f = g := by
  have hfb := inRange_iff.1 hfb
  have hgb := inRange_iff.1 hgb
  rcases utf8Forms_disjoint f hf g hg with h | h | h
  · exact h
  all_goals omega

/-- The search by the first byte finds the one form it belongs to. -/
theorem utf8Forms_find?_eq_some_iff {f : Utf8Form} {b : Byte} :
    utf8Forms.find? (fun f => inRange f.1 b) = some f ↔ f ∈ utf8Forms ∧ inRange f.1 b = true := by
  cases hfind : utf8Forms.find? fun f : Utf8Form => inRange f.1 b with
  | none =>
    have hnone : ∀ f ∈ utf8Forms, ¬ inRange f.1 b = true := List.find?_eq_none.1 hfind
    exact ⟨fun h => (by cases h), fun ⟨hf, hfb⟩ => absurd hfb (hnone f hf)⟩
  | some g =>
    have hg : g ∈ utf8Forms := List.mem_of_find?_eq_some hfind
    have hgb : inRange g.1 b = true := List.find?_some (p := fun f : Utf8Form => inRange f.1 b) hfind
    rw [Option.some_inj]
    exact ⟨fun h => h ▸ ⟨hg, hgb⟩, fun ⟨hf, hfb⟩ => utf8Forms_eq_of_inRange hg hf hgb hfb⟩

/-! ### The run of the validator -/

/-- At the start of a group the run goes on with the rest of the first byte's form. -/
theorem utf8Run_nil_cons {b : Byte} {bs : List Byte} :
    utf8Run [] (b :: bs) = true ↔ ∃ f ∈ utf8Forms, inRange f.1 b = true ∧ utf8Run f.2 bs = true := by
  simp only [← and_assoc, ← utf8Forms_find?_eq_some_iff]
  rw [utf8Run]
  cases utf8Forms.find? (fun f => inRange f.1 b) <;> simp

/-- Within a group the run reads one byte for each range still to come, and a new group starts after them. -/
theorem utf8Run_iff {rs : List (Nat × Nat)} {bs : List Byte} :
    utf8Run rs bs = true ↔
      ∃ tail rest, bs = tail ++ rest ∧ List.Forall₂ (fun r b => inRange r b = true) rs tail ∧ utf8Valid rest = true := by
  induction rs generalizing bs with
  | nil => simp [utf8Valid]
  | cons r rs ih =>
    constructor
    · intro h
      cases bs with
      | nil => cases h
      | cons b bs =>
        obtain ⟨hb, hrun⟩ := Bool.and_eq_true_iff.1 h
        obtain ⟨tail, rest, rfl, htail, hrest⟩ := ih.1 hrun
        exact ⟨b :: tail, rest, rfl, .cons hb htail, hrest⟩
    · rintro ⟨_, rest, rfl, hb | ⟨hb, htail⟩, hrest⟩
      exact Bool.and_eq_true_iff.2 ⟨hb, ih.2 ⟨_, rest, rfl, htail, hrest⟩⟩

/-- A valid sequence that is not empty is one group and a valid rest. -/
theorem utf8Valid_cons_iff {b : Byte} {bs : List Byte} :
    utf8Valid (b :: bs) = true ↔
      ∃ tail rest, bs = tail ++ rest ∧ IsUtf8Group (b :: tail) ∧ utf8Valid rest = true := by
  rw [utf8Valid, utf8Run_nil_cons]
  simp only [utf8Run_iff]
  constructor
  · rintro ⟨f, hf, hfb, tail, rest, rfl, htail, hrest⟩
    exact ⟨tail, rest, rfl, ⟨f, hf, .cons hfb htail⟩, hrest⟩
  · rintro ⟨tail, rest, rfl, ⟨f, hf, _ | ⟨hfb, htail⟩⟩, hrest⟩
    exact ⟨f, hf, hfb, tail, rest, rfl, htail, hrest⟩

theorem IsUtf8Group.exists_cons {g : List Byte} (h : IsUtf8Group g) : ∃ b tail, g = b :: tail := by
  obtain ⟨f, -, hg⟩ := h
  cases hg
  exact ⟨_, _, rfl⟩

/-- A sequence of bytes is valid exactly when it is a concatenation of groups. -/
theorem utf8Valid_iff_groups (bytes : List Byte) :
    utf8Valid bytes = true ↔ ∃ groups : List (List Byte), bytes = groups.flatten ∧ ∀ g ∈ groups, IsUtf8Group g := by
  constructor
  · induction hlen : bytes.length using Nat.strong_induction_on generalizing bytes with
    | _ n ih =>
      intro hvalid
      cases bytes with
      | nil => exact ⟨[], rfl, by simp⟩
      | cons b bs =>
        obtain ⟨tail, rest, rfl, hgroup, hrest⟩ := utf8Valid_cons_iff.1 hvalid
        have hshorter : rest.length < n := by
          rw [List.length_cons, List.length_append] at hlen
          omega
        obtain ⟨groups, rfl, hgroups⟩ := ih rest.length hshorter rest rfl hrest
        exact ⟨(b :: tail) :: groups, by simp, List.forall_mem_cons.2 ⟨hgroup, hgroups⟩⟩
  · rintro ⟨groups, rfl, hgroups⟩
    induction groups with
    | nil => rfl
    | cons g groups ih =>
      obtain ⟨hgroup, hgroups'⟩ := List.forall_mem_cons.1 hgroups
      obtain ⟨b, tail, rfl⟩ := hgroup.exists_cons
      exact utf8Valid_cons_iff.2 ⟨tail, groups.flatten, rfl, hgroup, ih hgroups'⟩

/-! ### The forms written out -/

/-- The nine forms as R80's table lists them, by the length of the group. -/
theorem isUtf8Group_iff (g : List Byte) :
    IsUtf8Group g ↔
      (∃ a, g = [a] ∧ a.toNat ≤ 0x7F) ∨
      (∃ a b, g = [a, b] ∧ 0xC2 ≤ a.toNat ∧ a.toNat ≤ 0xDF ∧ 0x80 ≤ b.toNat ∧ b.toNat ≤ 0xBF) ∨
      (∃ a b c, g = [a, b, c] ∧ 0x80 ≤ c.toNat ∧ c.toNat ≤ 0xBF ∧
        ((a = 0xE0 ∧ 0xA0 ≤ b.toNat ∧ b.toNat ≤ 0xBF) ∨
          (0xE1 ≤ a.toNat ∧ a.toNat ≤ 0xEC ∧ 0x80 ≤ b.toNat ∧ b.toNat ≤ 0xBF) ∨
          (a = 0xED ∧ 0x80 ≤ b.toNat ∧ b.toNat ≤ 0x9F) ∨
          (0xEE ≤ a.toNat ∧ a.toNat ≤ 0xEF ∧ 0x80 ≤ b.toNat ∧ b.toNat ≤ 0xBF))) ∨
      (∃ a b c d, g = [a, b, c, d] ∧ 0x80 ≤ c.toNat ∧ c.toNat ≤ 0xBF ∧ 0x80 ≤ d.toNat ∧ d.toNat ≤ 0xBF ∧
        ((a = 0xF0 ∧ 0x90 ≤ b.toNat ∧ b.toNat ≤ 0xBF) ∨
          (0xF1 ≤ a.toNat ∧ a.toNat ≤ 0xF3 ∧ 0x80 ≤ b.toNat ∧ b.toNat ≤ 0xBF) ∨
          (a = 0xF4 ∧ 0x80 ≤ b.toNat ∧ b.toNat ≤ 0x8F))) := by
  rcases g with _ | ⟨a, _ | ⟨b, _ | ⟨c, _ | ⟨d, _ | ⟨e, g⟩⟩⟩⟩⟩
  case nil => simp [IsUtf8Group]
  case cons.nil => simp [IsUtf8Group, utf8Forms, inRange_iff]
  case cons.cons.nil => simp [IsUtf8Group, utf8Forms, inRange_iff, and_assoc]
  case cons.cons.cons.nil =>
    simp [IsUtf8Group, utf8Forms, inRange_iff]
    bv_omega
  case cons.cons.cons.cons.nil =>
    simp [IsUtf8Group, utf8Forms, inRange_iff]
    bv_omega
  case cons.cons.cons.cons.cons => simp [IsUtf8Group, utf8Forms]

/-! ### The obligation -/

/-- Settles O43: a valid sequence is cut into groups at the starts of the validator's groups, and each group has one of the
forms. -/
theorem utf8IsTheNineForms : Obligations.Utf8IsTheNineForms := by
  intro bytes
  simpa only [isUtf8Group_iff] using utf8Valid_iff_groups bytes

end Sys2Proof.Machine
end

section
/-! PROOFS. The codec (R70 to R84): the parity adjustment, the capacity test, the slots EMBED writes, the slots EXTRACT
reads, and the message that comes back. -/

namespace Sys2Proof.Machine

variable {s : State} {i j l n u : Nat} {m : Nat → Byte} {image : Image}

/-! ### The parity adjustment -/

/-- A sample whose bit 0 is right stays (R73). -/
theorem setLsb_of_agree {v : Byte} {b : Bool} (h : v.getLsbD 0 = b) : setLsb v b = v :=
  if_pos h

/-- Bits 7:1 are kept and bit 0 is replaced (R73). -/
theorem setLsb_eq_or (v : Byte) (b : Bool) : setLsb v b = ((v &&& 0xFE) ||| BitVec.setWidth 8 (BitVec.ofBool b)) := by
  have hmask : ∀ k < 8, k ≠ 0 → (0xFE : Byte).getLsbD k = true := by decide
  refine BitVec.eq_of_getLsbD_eq fun k hk => ?_
  rw [BitVec.getLsbD_or, BitVec.getLsbD_and, BitVec.getLsbD_setWidth, BitVec.getLsbD_ofBool]
  by_cases hzero : k = 0
  · subst hzero
    rw [setLsb_bit0]
    simp
  · rw [setLsb_high v b k hzero, hmask k hk hzero]
    simp [hzero]

theorem getLsbD_zero_eq_decide (v : Byte) : v.getLsbD 0 = decide (v.toNat % 2 = 1) :=
  Nat.testBit_zero _

/-- An odd sample with the wrong bit 0 goes down by one, and cannot be 0 (R73). -/
theorem setLsb_of_odd {v : Byte} {b : Bool} (h : v.getLsbD 0 ≠ b) (hodd : v.toNat % 2 = 1) :
    b = false ∧ (setLsb v b).toNat = v.toNat - 1 ∧ 1 ≤ v.toNat := by
  have hbit : v.getLsbD 0 = true := by rw [getLsbD_zero_eq_decide, decide_eq_true hodd]
  rw [setLsb, if_neg h, if_pos hbit]
  rw [hbit] at h
  exact ⟨by simpa using h.symm, by bv_omega, by omega⟩

/-- An even sample with the wrong bit 0 goes up by one, and cannot be 255 (R73). -/
theorem setLsb_of_even {v : Byte} {b : Bool} (h : v.getLsbD 0 ≠ b) (heven : v.toNat % 2 = 0) :
    b = true ∧ (setLsb v b).toNat = v.toNat + 1 := by
  have hbit : v.getLsbD 0 = false := by rw [getLsbD_zero_eq_decide, decide_eq_false (by omega)]
  rw [setLsb, if_neg h, hbit, if_neg Bool.false_ne_true]
  rw [hbit] at h
  exact ⟨by simpa using h.symm, by bv_omega⟩

/-! ### The errors of the commands that run embed -/

theorem statusDone_badLen : statusDone .badLen .none = 0x032 := by decide

theorem statusDone_capacityExceeded : statusDone .capacityExceeded .none = 0x042 := by decide

/-- With a message above MSGMAX a command that runs embed reports BAD_LEN and changes nothing else (R93). -/
theorem exec_of_badLen {c : Instr} (hruns : runsEmbed c = true) (hd : s.validDims) (hlen : s.params.msgmax < s.mlen) :
    ∃ t, exec c s = .next t ∧ OnlyStatus 0x032 s t := by
  have hdims : s.badDim = false := s.badDim_eq_false_iff.2 hd
  have herror : s.operandError (runsEmbed c) = some .badLen := by
    simp [State.operandError, hruns, hdims, State.badLen, hlen]
  rw [← statusDone_badLen]
  exact ⟨_, exec_of_error c herror, raise_onlyStatus s .badLen⟩

/-- With a bitstream above the capacity a command that runs embed reports CAPACITY_EXCEEDED and changes nothing else
(R75, R93). -/
theorem exec_of_overCapacity {c : Instr} (hruns : runsEmbed c = true) (hd : s.validDims)
    (hlen : s.mlen ≤ s.params.msgmax) (hcap : s.pixels < s.streamBits) :
    ∃ t, exec c s = .next t ∧ OnlyStatus 0x042 s t := by
  have hdims : s.badDim = false := s.badDim_eq_false_iff.2 hd
  have hfits : s.badLen = false := s.badLen_eq_false_iff.2 hlen
  have herror : s.operandError (runsEmbed c) = some .capacityExceeded := by
    simp [State.operandError, hruns, hdims, hfits, State.overCapacity, hcap]
  rw [← statusDone_capacityExceeded]
  exact ⟨_, exec_of_error c herror, raise_onlyStatus s .capacityExceeded⟩

/-! ### The bitstream -/

/-- The first 32 bits of the bitstream are the header (R72). -/
theorem streamBit_header (hi : i < 32) : streamBit l m i = l.testBit (31 - i) :=
  if_pos hi

/-- Eight bits of the bitstream for each message byte, most significant first (R35, R72). -/
theorem streamBit_payload (hu : u < 8) : streamBit l m (32 + 8 * j + u) = (m j).getLsbD (7 - u) := by
  have hbyte : (32 + 8 * j + u - 32) / 8 = j := by omega
  have hbit : (32 + 8 * j + u - 32) % 8 = u := by omega
  rw [streamBit, if_neg (by omega), hbyte, hbit]

/-! ### The embedded image -/

/-- A slot within the bitstream takes its bit (R74). -/
theorem embedImg_slot (hi : i < 32 + l) : embedImg l m image (3 * i) = setLsb (image (3 * i)) (streamBit l m i) := by
  have hpixel : pixelOf (3 * i) = i := Nat.mul_div_cancel_left i (by decide)
  have hchannel : channelOf (3 * i) = 0 := Nat.mul_mod_right 3 i
  rw [embedImg, hpixel, if_pos ⟨hchannel, hi⟩]

/-- The bytes of the channels 1 and 2, and those of the slots beyond the bitstream, stay (R76). -/
theorem embedImg_of_no_slot {a : Nat} (ha : a % 3 ≠ 0 ∨ 3 * (32 + l) ≤ a) : embedImg l m image a = image a :=
  if_neg (by unfold channelOf pixelOf; omega)

theorem slotBit_embedImg (hi : i < 32 + l) : slotBit (embedImg l m image) i = streamBit l m i := by
  rw [slotBit, embedImg_slot hi, setLsb_bit0]

/-- No bit but bit 0 of a byte changes (R76). -/
theorem embedImg_high {k : Nat} (hk : k ≠ 0) (a : Nat) : (embedImg l m image a).getLsbD k = (image a).getLsbD k := by
  unfold embedImg
  split
  · exact setLsb_high _ _ k hk
  · rfl

/-- Embedding the same bitstream again changes nothing: every slot already holds its bit (R74). -/
theorem embedImg_embedImg : embedImg l m (embedImg l m image) = embedImg l m image := by
  funext a
  by_cases ha : channelOf a = 0 ∧ pixelOf a < 32 + l
  · simp only [embedImg, if_pos ha]
    exact setLsb_of_agree (setLsb_bit0 _ _)
  · exact if_neg ha

/-! ### EMBED -/

/-- When the message fits, EMBED has its effect. -/
theorem exec_embed (hd : s.validDims) (hfits : s.embedFits) : exec .embed s = .next (commandEffect .embed s) :=
  exec_of_valid .embed hd fun _ => hfits

/-- A command changes neither the message length nor the capacity. -/
theorem commandEffect_embedFits {c : Instr} (hfits : s.embedFits) : (commandEffect c s).embedFits := by
  obtain ⟨⟨-, hwidth, hheight, hmsglen, -⟩, ⟨hparams, -⟩, -⟩ := commandEffect_frame c s
  simpa only [State.embedFits, State.streamBits, State.payloadBits, State.mlen, State.pixels, State.w, State.h, hwidth,
    hheight, hmsglen, hparams] using hfits

/-- Every byte of IMG after EMBED is that of the embedded image. -/
theorem commandEffect_embed_imgByte (s : State) :
    (commandEffect .embed s).imgByte = embedImg s.payloadBits s.msgByte s.imgByte := by
  funext a
  rw [commandEffect, State.complete_imgByte, State.storeSlots_imgByte]
  by_cases ha : a < 3 * s.streamBits ∧ a % 3 = 0
  · exact if_pos ha
  · rw [if_neg ha, embedImg_of_no_slot]
    rw [State.streamBits] at ha
    omega

/-! ### EXTRACT -/

/-- With valid dimensions EXTRACT reports the extract of IMG. -/
theorem exec_extract (hd : s.validDims) : exec .extract s = .next (s.finishExtract s.pixels s.imgByte) :=
  exec_of_valid .extract hd (by simp [runsEmbed])

/-- Bit 31 - i of the header is slot i (R77). -/
theorem headerOf_testBit (image : Image) (hi : i < 32) : (headerOf image).testBit (31 - i) = slotBit image i :=
  bitsValue_testBit 32 (slotBit image) i hi

/-- Bit 7 - u of byte j is slot 32 + 8j + u (R77, R79). -/
theorem payloadByte_getLsbD (image : Image) (j : Nat) (hu : u < 8) :
    (payloadByte image j).getLsbD (7 - u) = slotBit image (32 + 8 * j + u) := by
  have hbit := bitsValue_testBit 8 (fun t => slotBit image (32 + 8 * j + t)) u hu
  have hlt : 7 - u < 8 := by omega
  rw [payloadByte, BitVec.getLsbD_ofNat, decide_eq_true hlt, Bool.true_and]
  exact hbit

/-- The outcome is ABSENT_RANGE exactly when the header is out of range (R78, R82). -/
theorem extractImg_absentRange_iff (n : Nat) (image : Image) :
    (extractImg n image).1 = .absentRange ↔ n < 32 ∨ headerOf image = 0 ∨ n - 32 < headerOf image := by
  rcases extractImg_cases n image with ⟨h, hout⟩ | ⟨hn, hzero, hle, ⟨-, h⟩ | ⟨-, h⟩⟩
  · rw [h]
    exact ⟨fun _ => hout, fun _ => rfl⟩
  all_goals
    rw [h]
    exact ⟨fun hx => (by cases hx), fun _ => by omega⟩

/-- Only the outcome TEXT comes with a text (R81). -/
theorem extractImg_text_eq_nil {n : Nat} {image : Image} (h : (extractImg n image).1 ≠ .text) :
    (extractImg n image).2 = [] := by
  rcases extractImg_cases n image with ⟨heq, -⟩ | ⟨-, -, -, ⟨-, heq⟩ | ⟨-, heq⟩⟩
  · rw [heq]
  · rw [heq] at h
    exact absurd rfl h
  · rw [heq]

theorem statusDone_text : statusDone .ok .text = 0x102 := by decide

theorem statusDone_absentRange : statusDone .ok .absentRange = 0x202 := by decide

theorem statusDone_absentUtf8 : statusDone .ok .absentUtf8 = 0x302 := by decide

theorem xresNumber_eq_two_iff (x : ExtractResult) : xresNumber x = 2 ↔ x = .absentRange := by
  cases x <;> decide

theorem payloadBytes_getElem? (hj : j < n) : (payloadBytes image n)[j]? = some (payloadByte image j) := by
  simp [payloadBytes, hj]

/-- What the end of an extract reports is what the slots hold (R77 to R79, R81, R82). -/
theorem State.finishExtract_reportsExtract (s : State) (n : Nat) (image : Image) :
    ReportsExtract n image (s.finishExtract n image) := by
  have hheader : headerOf image < 2 ^ 32 := bitsValue_lt 32 _
  refine ⟨headerOf image, payloadByte image, hheader, fun i hi => headerOf_testBit image hi,
    fun j u _ hu => payloadByte_getLsbD image j hu, ?_⟩
  rw [State.finishExtract_status, State.finishExtract_outlen]
  rcases extractImg_cases n image with ⟨h, hout⟩ | ⟨hn, hzero, hle, ⟨hvalid, h⟩ | ⟨hvalid, h⟩⟩
  · rw [if_pos hout, h]
    exact ⟨statusDone_absentRange, rfl⟩
  · rw [if_neg (by omega), ← payloadBytes, if_pos hvalid, h]
    refine ⟨statusDone_text, ?length, fun j hj => ?byte⟩
    case length =>
      rw [payloadBytes_length, BitVec.toNat_ofNat]
      exact Nat.mod_eq_of_lt (by omega)
    case byte => rw [State.finishExtract_outByte, h, payloadBytes_getElem? hj, Option.getD_some]
  · rw [if_neg (by omega), ← payloadBytes, hvalid, if_neg Bool.false_ne_true, h]
    exact ⟨statusDone_absentUtf8, rfl⟩

/-! ### The message that comes back -/

/-- The header of an embedded image is the payload length (R83). -/
theorem headerOf_embedImg (hl : l < 2 ^ 32) : headerOf (embedImg l m image) = l := by
  have hslots : ∀ i, i < 32 → slotBit (embedImg l m image) i = l.testBit (32 - 1 - i) := fun i hi => by
    rw [slotBit_embedImg (by omega), streamBit_header hi]
  rw [headerOf, bitsValue_congr hslots, bitsValue_of_testBit 32 l hl]

/-- Each byte of the payload of an embedded image is the message byte (R83). -/
theorem payloadByte_embedImg (hj : 8 * j + 8 ≤ l) : payloadByte (embedImg l m image) j = m j := by
  have hslots : ∀ u, u < 8 → slotBit (embedImg l m image) (32 + 8 * j + u) = (m j).toNat.testBit (8 - 1 - u) :=
    fun u hu => by
      rw [slotBit_embedImg (by omega), streamBit_payload hu]
      rfl
  rw [payloadByte, bitsValue_congr hslots, bitsValue_of_testBit 8 _ (m j).isLt]
  exact BitVec.ofNat_toNat _ _

/-- The payload of an embedded image is the message (R83). -/
theorem payloadBytes_embedImg : payloadBytes (embedImg (8 * n) m image) n = (List.range n).map m :=
  List.map_congr_left fun j hj => by
    have hj : j < n := List.mem_range.1 hj
    exact payloadByte_embedImg (by omega)

/-- The extract of an embedded image: ABSENT_RANGE for the empty message, else the message if it is valid UTF-8 and
ABSENT_UTF8 if it is not (R83, R84). -/
theorem extractImg_embedImg {pixels : Nat} (hfits : 32 + 8 * n ≤ pixels) (hn : 8 * n < 2 ^ 32) :
    extractImg pixels (embedImg (8 * n) m image) =
      if n = 0 then (.absentRange, [])
      else if utf8Valid ((List.range n).map m) then (.text, (List.range n).map m)
      else (.absentUtf8, []) := by
  have hheader : headerOf (embedImg (8 * n) m image) = 8 * n := headerOf_embedImg hn
  have hbytes : 8 * n / 8 = n := Nat.mul_div_cancel_left n (by decide)
  rw [extractImg, if_neg (by omega), hheader, hbytes, payloadBytes_embedImg]
  by_cases hzero : n = 0
  · rw [if_pos (.inl (by omega)), if_pos hzero]
  · rw [if_neg (by omega), if_neg hzero]

/-- W × H has 32 bits. -/
theorem State.pixels_lt (s : State) : s.pixels < 2 ^ 32 :=
  Nat.mul_lt_mul'' (c := 2 ^ 16) (d := 2 ^ 16) s.width.isLt s.height.isLt

/-- The payload length of a message that fits into the image has 32 bits. -/
theorem State.embedFits.payloadBits_lt (hfits : s.embedFits) : s.payloadBits < 2 ^ 32 := by
  obtain ⟨-, hcap⟩ := hfits
  have hpixels := s.pixels_lt
  rw [State.streamBits] at hcap
  omega

/-- The number of pixels depends on WIDTH and HEIGHT only. -/
theorem State.pixels_congr {t t' : State} (hwidth : t'.width = t.width) (hheight : t'.height = t.height) :
    t'.pixels = t.pixels := by
  simp only [State.pixels, State.w, State.h, hwidth, hheight]

/-- Whether the dimensions are valid depends on WIDTH, HEIGHT and the parameters only. -/
theorem State.validDims_congr {t t' : State} (hwidth : t'.width = t.width) (hheight : t'.height = t.height)
    (hparams : t'.params = t.params) (hd : t.validDims) : t'.validDims := by
  simpa only [State.validDims, State.pixels, State.w, State.h, hwidth, hheight, hparams] using hd

/-! ### The obligations -/

/-- Settles O38: bit 0 is set, by one step up or down, and the other bits stay. -/
theorem parityAdjustmentSetsTheLowBit : Obligations.ParityAdjustmentSetsTheLowBit :=
  ⟨fun v b => ⟨setLsb_eq_or v b, setLsb_of_agree, setLsb_of_odd, setLsb_of_even⟩, by decide, by decide⟩

/-- Settles O26: the check of the operands comes before any effect, for EMBED and for WPIPE with S = 1. -/
theorem capacityIsTestedFirst : Obligations.CapacityIsTestedFirst := by
  refine fun s hd hlen => ⟨fun hcap => ?exceeded, fun hfits => ⟨?_, ?_⟩, fun hsmall => by omega⟩
  case exceeded => exact ⟨exec_of_overCapacity rfl hd hlen hcap, exec_of_overCapacity rfl hd hlen hcap⟩
  · exact ⟨_, exec_embed hd ⟨hlen, hfits⟩, statusDone_ok⟩
  · exact ⟨_, exec_of_valid (.wpipe true) hd fun _ => ⟨hlen, hfits⟩, statusDone_ok⟩

/-- Settles O39: the three errors in R95's order, and the embedded image slot by slot. -/
theorem embedWritesTheBitstream : Obligations.EmbedWritesTheBitstream := by
  refine ⟨decode_encode .embed, fun s => ⟨exec_of_not_validDims .embed, exec_of_badLen rfl, exec_of_overCapacity rfl,
    fun hd hfits => ?_⟩⟩
  obtain ⟨hinputs, hsurroundings, hengine, -⟩ := commandEffect_frame .embed s
  refine ⟨_, exec_embed hd hfits, statusDone_ok, hengine, ?_⟩
  rw [commandEffect_embed_imgByte]
  refine ⟨fun i hi => ?header, fun j u hj hu => ?payload, fun a k hk => embedImg_high hk a,
    fun a ha => embedImg_of_no_slot ha, hinputs, commandEffect_sameText rfl s, hsurroundings⟩
  case header =>
    rw [embedImg_slot (by omega), setLsb_bit0, streamBit_header hi]
    rfl
  case payload =>
    have hslot : 32 + 8 * j + u < 32 + s.payloadBits := by
      rw [State.payloadBits]
      omega
    rw [embedImg_slot hslot, setLsb_bit0, streamBit_payload hu]

/-- Settles O40: the second EMBED writes the bitstream that already stands in the slots. -/
theorem embedIsIdempotent : Obligations.EmbedIsIdempotent := by
  refine fun s hd hfits => ⟨_, exec_embed hd hfits, fun t' himage hinputs hparams => ?_⟩
  obtain ⟨v, u, hv, hu, -, hsame, -⟩ := exec_sameResult (SameOperands.agree .embed ⟨hinputs, himage, hparams⟩)
  rw [exec_embed (commandEffect_validDims hd) (commandEffect_embedFits hfits)] at hv
  cases hv
  refine ⟨u, hu, fun a => ?_⟩
  rw [hsame a, commandEffect_embed_imgByte, commandEffect_embed_imgByte]
  exact congrFun embedImg_embedImg a

/-- Settles O41: the header and the bytes are read from the slots bit by bit. -/
theorem extractReportsTheSlots : Obligations.ExtractReportsTheSlots := by
  refine ⟨decode_encode .extract, fun s => ⟨exec_of_not_validDims .extract, fun hd => ?_⟩⟩
  obtain ⟨hinputs, hsurroundings, hengine, -⟩ := commandEffect_frame .extract s
  exact ⟨_, exec_extract hd, hengine, s.finishExtract_reportsExtract s.pixels s.imgByte, fun _ => rfl, hinputs,
    hsurroundings⟩

/-- Settles O42: XRES is the outcome of extract_img. -/
theorem headerRangeIsChecked : Obligations.HeaderRangeIsChecked := by
  intro s hd
  have hxres : xresField (s.finishExtract s.pixels s.imgByte).status = 2 ↔
      (extractImg s.pixels s.imgByte).1 = .absentRange := by
    rw [State.finishExtract_status, xresField_statusDone, xresNumber_eq_two_iff]
  refine ⟨_, exec_extract hd, ?range, fun htwo => ?absent⟩
  case range =>
    rw [hxres, extractImg_absentRange_iff, State.pixels]
    omega
  case absent =>
    have habsent := hxres.1 htwo
    rw [State.finishExtract_status, State.finishExtract_outlen, extractImg_text_eq_nil (by simp [habsent]), habsent]
    exact ⟨statusDone_absentRange, rfl⟩

/-- Settles O44: EXTRACT reads the image that EMBED left. -/
theorem stegoRoundTrip : Obligations.StegoRoundTrip := by
  refine fun s hd hfits => ⟨_, exec_embed hd hfits, fun t' himage hwidth hheight hparams => ?_⟩
  have hbits := hfits.payloadBits_lt
  have hd' : t'.validDims := State.validDims_congr hwidth hheight hparams (commandEffect_validDims hd)
  have hembedded : t'.imgByte = embedImg (8 * s.mlen) s.msgByte s.imgByte :=
    (funext himage).trans (commandEffect_embed_imgByte s)
  have hpixels : t'.pixels = s.pixels := (State.pixels_congr hwidth hheight).trans (commandEffect_pixels .embed s)
  obtain ⟨-, hcap⟩ := hfits
  have hextract := extractImg_embedImg (m := s.msgByte) (image := s.imgByte) hcap hbits
  refine ⟨_, exec_extract hd', ?_⟩
  simp only [State.finishExtract_status, State.finishExtract_outlen, State.finishExtract_outByte, hpixels, hembedded,
    hextract]
  refine ⟨fun hpos hvalid => ?valid, fun hpos hinvalid => ?invalid, fun hzero => ?empty⟩
  case valid =>
    rw [if_neg (by omega), if_pos hvalid]
    refine ⟨statusDone_text, ?_, fun j hj => ?_⟩
    · simp [State.mlen]
    · simp [hj]
  case invalid =>
    rw [if_neg (by omega), hinvalid, if_neg Bool.false_ne_true]
    exact ⟨statusDone_absentUtf8, rfl⟩
  case empty =>
    rw [if_pos hzero]
    exact ⟨statusDone_absentRange, rfl⟩

end Sys2Proof.Machine
end

section
/-! PROOFS. The pipelines (R85 to R91): with S = 0 each is a cipher command and FLIP in one, and S = 1 puts EMBED before
WPIPE and EXTRACT after RPIPE. -/

namespace Sys2Proof.Machine

variable {s : State}

/-! ### The pipelines with S = 0 -/

/-- The pipeline with S = 0 that adds the key (WPIPE) or subtracts it (RPIPE) and reflects the image (R86, R87). -/
def plainPipeline : Bool → Instr
  | false => .wpipe false
  | true => .rpipe false

/-- A sample comes from the same channel of the reflected pixel, through the adder, and IMG beyond the image stays. -/
theorem commandEffect_plainPipeline_imgByte (sub : Bool) (s : State) (a : Nat) :
    (commandEffect (plainPipeline sub) s).imgByte a =
      if a < s.samples then madd8 (s.imgByte (reflectIndex s.pixels a)) s.key sub else s.imgByte a := by
  have himage : (commandEffect (plainPipeline sub) s).imgByte a =
      (s.storeImage s.samples fun a => madd8 (flipImg s.pixels s.imgByte a) s.key sub).imgByte a := by
    cases sub <;> rfl
  rw [himage, State.storeImage_imgByte]
  by_cases ha : a < s.samples
  · rw [if_pos ha, if_pos ha, reflectIndex, if_pos (show a < 3 * s.pixels from ha), flipImg]
  · rw [if_neg ha, if_neg ha]

/-- A pipeline with S = 0 has the effect of its cipher command followed by FLIP (R90). -/
theorem commandEffect_flip_of_cipherCommand (sub : Bool) (s : State) :
    SameImage (commandEffect .flip (commandEffect (cipherCommand sub) s)) (commandEffect (plainPipeline sub) s) :=
  fun a => by
    rw [commandEffect_plainPipeline_imgByte, commandEffect_flip_imgByte, commandEffect_pixels,
      commandEffect_cipherCommand_imgByte]
    by_cases ha : a < s.samples
    · have hinside : reflectIndex s.pixels a < s.samples := reflectIndex_lt_iff.2 ha
      rw [if_pos ha, if_pos hinside]
    · rw [reflectIndex_of_le (Nat.not_lt.1 ha), if_neg ha]

/-- A pipeline with S = 0 has the effect of FLIP followed by its cipher command (R90). -/
theorem commandEffect_cipherCommand_of_flip (sub : Bool) (s : State) :
    SameImage (commandEffect (cipherCommand sub) (commandEffect .flip s)) (commandEffect (plainPipeline sub) s) :=
  fun a => (commandEffect_flip_of_cipherCommand sub s a).trans (commandEffect_flip_cipherCommand sub s a).symm

/-- A sample goes to the same channel of the reflected pixel, through the adder (R86, R87). -/
theorem commandEffect_plainPipeline_sample (sub : Bool) (s : State) {p c : Nat} (hp : p < s.pixels) (hc : c < 3) :
    (commandEffect (plainPipeline sub) s).imgByte (3 * (s.pixels - 1 - p) + c) =
      madd8 (s.imgByte (3 * p + c)) s.key sub := by
  have hinside : 3 * (s.pixels - 1 - p) + c < s.samples := by
    rw [State.samples]
    omega
  rw [commandEffect_plainPipeline_imgByte, if_pos hinside, ← reflectIndex_sample hp hc, reflectIndex_reflectIndex]

theorem commandEffect_plainPipeline_beyond (sub : Bool) (s : State) :
    SameImageFrom s.samples s (commandEffect (plainPipeline sub) s) := fun a ha => by
  rw [commandEffect_plainPipeline_imgByte, if_neg (Nat.not_lt.2 ha)]

/-- RPIPE with S = 0 gives the image back from a state with the image that WPIPE with S = 0 left (R89). -/
theorem commandEffect_plainPipeline_roundTrip {t : State} (himage : SameImage (commandEffect (plainPipeline false) s) t)
    (hpixels : t.pixels = s.pixels) (hkey : t.key = s.key) : SameImage s (commandEffect (plainPipeline true) t) :=
  fun a => by
    have hsamples : t.samples = s.samples := congrArg (3 * ·) hpixels
    rw [commandEffect_plainPipeline_imgByte, hsamples, hpixels, hkey, himage, himage]
    by_cases ha : a < s.samples
    · have hinside : reflectIndex s.pixels a < s.samples := reflectIndex_lt_iff.2 ha
      rw [if_pos ha, commandEffect_plainPipeline_imgByte, if_pos hinside, reflectIndex_reflectIndex]
      exact madd8_madd8_not _ _ false
    · rw [if_neg ha, commandEffect_plainPipeline_imgByte, if_neg ha]

/-! ### WPIPE and the embed stage -/

/-- The state whose image WPIPE encrypts: that after EMBED when S = 1, and s itself when S = 0 (I1 of R86). -/
def embedStage (stego : Bool) (s : State) : State := if stego then commandEffect .embed s else s

@[simp] theorem embedStage_pixels (stego : Bool) (s : State) : (embedStage stego s).pixels = s.pixels := by
  cases stego with
  | false => rfl
  | true => exact commandEffect_pixels .embed s

@[simp] theorem embedStage_samples (stego : Bool) (s : State) : (embedStage stego s).samples = s.samples := by
  rw [State.samples, State.samples, embedStage_pixels]

@[simp] theorem embedStage_key (stego : Bool) (s : State) : (embedStage stego s).key = s.key := by
  cases stego with
  | false => rfl
  | true => exact commandEffect_key .embed s

/-- The image after the embed stage: with S = 1 the slots within the bitstream take their bits (R86). -/
theorem embedStage_imgByte_sample (stego : Bool) (s : State) (p : Nat) {c : Nat} (hc : c < 3) :
    (embedStage stego s).imgByte (3 * p + c) =
      if stego = true ∧ c = 0 ∧ p < s.streamBits
      then setLsb (s.imgByte (3 * p)) (streamBit s.payloadBits s.msgByte p)
      else s.imgByte (3 * p + c) := by
  cases stego with
  | false => exact (if_neg (by simp)).symm
  | true =>
    rw [embedStage, if_pos rfl, commandEffect_embed_imgByte]
    by_cases hslot : c = 0 ∧ p < s.streamBits
    · obtain ⟨rfl, hp⟩ := hslot
      rw [if_pos ⟨rfl, rfl, hp⟩]
      exact embedImg_slot hp
    · rw [if_neg fun h => hslot h.2]
      rw [State.streamBits] at hslot
      exact embedImg_of_no_slot (by omega)

/-- A bitstream within the capacity has no slot beyond the image. -/
theorem embedStage_imgByte_beyond {stego : Bool} (hfits : stego = true → s.embedFits) {a : Nat} (ha : s.samples ≤ a) :
    (embedStage stego s).imgByte a = s.imgByte a := by
  cases stego with
  | false => rfl
  | true =>
    obtain ⟨-, hcap⟩ := hfits rfl
    rw [embedStage, if_pos rfl, commandEffect_embed_imgByte]
    exact embedImg_of_no_slot (.inr ((Nat.mul_le_mul_left 3 hcap).trans ha))

/-- WPIPE has the effect of the embed stage followed by WPIPE with S = 0 (R86). -/
theorem commandEffect_wpipe_sameImage {stego : Bool} (hfits : stego = true → s.embedFits) :
    SameImage (commandEffect (.wpipe false) (embedStage stego s)) (commandEffect (.wpipe stego) s) := fun a => by
  have hstages : writeStages s stego = writeStages (embedStage stego s) false := by
    rw [writeStages, writeStages, embedStage_pixels, embedStage_key]
    cases stego with
    | false => rfl
    | true =>
      rw [embedStage, if_pos rfl, if_pos rfl, commandEffect_embed_imgByte]
      rfl
  rw [commandEffect, commandEffect, State.complete_imgByte, State.complete_imgByte, State.storeImage_imgByte,
    State.storeImage_imgByte, embedStage_samples, ← hstages]
  by_cases ha : a < s.samples
  · rw [if_pos ha, if_pos ha]
  · rw [if_neg ha, if_neg ha, embedStage_imgByte_beyond hfits (Nat.not_lt.1 ha)]

/-- With valid dimensions, and with S = 1 a message that fits, WPIPE has its effect. -/
theorem exec_wpipe {stego : Bool} (hd : s.validDims) (hfits : stego = true → s.embedFits) :
    exec (.wpipe stego) s = .next (commandEffect (.wpipe stego) s) :=
  exec_of_valid _ hd hfits

/-! ### RPIPE and the extract stage -/

/-- With valid dimensions RPIPE has its effect. -/
theorem exec_rpipe (stego : Bool) (hd : s.validDims) :
    exec (.rpipe stego) s = .next (commandEffect (.rpipe stego) s) :=
  exec_of_valid _ hd (by simp [runsEmbed])

/-- The end of an extract on n pixels depends on the samples of those pixels only. -/
theorem State.finishExtract_congr (s : State) {n : Nat} {f g : Image} (h : ∀ a, a < 3 * n → f a = g a) :
    s.finishExtract n f = s.finishExtract n g := by
  rw [State.finishExtract, State.finishExtract, extractImg_congr h]

/-- RPIPE with S = 1 is RPIPE with S = 0 followed by EXTRACT: the extract reads the new image (R87). -/
theorem commandEffect_rpipe_true (s : State) :
    commandEffect (.rpipe true) s = commandEffect .extract (commandEffect (.rpipe false) s) :=
  State.finishExtract_congr (s.storeImage s.samples (readStages s)) fun a ha =>
    ((s.storeImage_imgByte _ _ a).trans (if_pos ha)).symm

/-- The image after RPIPE is the same with S = 0 and with S = 1. -/
theorem commandEffect_rpipe_imgByte (stego : Bool) (s : State) :
    (commandEffect (.rpipe stego) s).imgByte = (commandEffect (plainPipeline true) s).imgByte := by
  cases stego <;> rfl

/-- RPIPE with S = 1 reports what FLIP, DEC and EXTRACT one after the other report (R90). -/
theorem sameResult_rpipe_true (s : State) :
    SameResult .extract (commandEffect .extract (commandEffect (cipherCommand true) (commandEffect .flip s)))
      (commandEffect (.rpipe true) s) := by
  rw [commandEffect_rpipe_true]
  exact sameResult_commandEffect ⟨commandEffect_cipherCommand_of_flip true s, rfl, rfl, rfl, rfl, by simp [runsEmbed],
    by simp [runsEmbed]⟩

/-! ### The obligations -/

/-- Settles O45: the embed stage's image, encrypted and reflected. -/
theorem writePipelineInClosedForm : Obligations.WritePipelineInClosedForm := by
  refine ⟨decode_encode (.wpipe false), decode_encode (.wpipe true), fun stego s => ⟨exec_of_not_validDims _,
    fun hd hstego => exec_of_badLen hstego hd, fun hd hstego => exec_of_overCapacity hstego hd, fun hd hfits => ?_⟩⟩
  obtain ⟨hinputs, hsurroundings, hengine, -⟩ := commandEffect_frame (.wpipe stego) s
  have himage := commandEffect_wpipe_sameImage hfits
  refine ⟨_, exec_wpipe hd hfits, statusDone_ok, hengine, fun p c hp hc => ?sample, fun a ha => ?beyond, hinputs,
    commandEffect_sameText rfl s, hsurroundings⟩
  case sample =>
    have hpixel : p < (embedStage stego s).pixels := by rwa [embedStage_pixels]
    have hsample := commandEffect_plainPipeline_sample false (embedStage stego s) hpixel hc
    rw [embedStage_pixels, embedStage_key, embedStage_imgByte_sample stego s p hc] at hsample
    rw [himage]
    exact (congrArg BitVec.toNat hsample).trans (madd8_add_toNat _ _)
  case beyond =>
    have houtside : (embedStage stego s).samples ≤ a := by rwa [embedStage_samples]
    rw [himage, ← embedStage_imgByte_beyond hfits ha]
    exact commandEffect_plainPipeline_beyond false _ a houtside

/-- Settles O46: the decrypted and reflected image, and the extract of it. -/
theorem readPipelineInClosedForm : Obligations.ReadPipelineInClosedForm := by
  refine ⟨decode_encode (.rpipe false), decode_encode (.rpipe true), fun stego s => ⟨exec_of_not_validDims _,
    fun hd => ?_⟩⟩
  obtain ⟨hinputs, hsurroundings, hengine, -⟩ := commandEffect_frame (.rpipe stego) s
  refine ⟨_, exec_rpipe stego hd, hengine, fun p c hp hc => ?sample, fun a ha => ?beyond, hinputs, hsurroundings,
    fun hstego => ?extract, fun hstego => ?noExtract⟩
  case sample =>
    rw [commandEffect_rpipe_imgByte]
    have hsample := commandEffect_plainPipeline_sample true s hp hc
    exact (congrArg (fun v => (v.toNat : Int)) hsample).trans (madd8_sub_toNat _ _)
  case beyond =>
    rw [commandEffect_rpipe_imgByte]
    exact commandEffect_plainPipeline_beyond true s a ha
  case extract =>
    subst hstego
    rw [commandEffect_rpipe_true]
    exact State.finishExtract_reportsExtract _ _ _
  case noExtract =>
    subst hstego
    exact ⟨statusDone_ok, commandEffect_sameText rfl s⟩

/-- Settles O47: RPIPE gives the image of the embed stage back, and its extract is then that of EXTRACT after EMBED. -/
theorem pipelineRoundTrip : Obligations.PipelineRoundTrip := by
  refine fun hide reveal s hd hfits => ⟨_, exec_wpipe hd hfits, fun t' himage hwidth hheight hkey hparams => ?_⟩
  have hd' : t'.validDims := State.validDims_congr hwidth hheight hparams (commandEffect_validDims hd)
  have hpixels : t'.pixels = (embedStage hide s).pixels := by
    rw [embedStage_pixels, State.pixels_congr hwidth hheight, commandEffect_pixels]
  have hkey' : t'.key = (embedStage hide s).key := by rw [embedStage_key, hkey, commandEffect_key]
  have hback : ∀ stego, SameImage (embedStage hide s) (commandEffect (.rpipe stego) t') := fun stego => by
    rw [SameImage, commandEffect_rpipe_imgByte]
    exact commandEffect_plainPipeline_roundTrip (fun a => (himage a).trans (commandEffect_wpipe_sameImage hfits a))
      hpixels hkey'
  refine ⟨_, exec_rpipe reveal hd', fun hplain => ?plain, fun hhide => ?hidden,
    fun hhide hreveal hpos hvalid => ?message⟩
  case plain =>
    subst hplain
    exact hback reveal
  case hidden =>
    subst hhide
    exact ⟨_, exec_embed hd (hfits rfl), hback reveal⟩
  case message =>
    subst hhide hreveal
    obtain ⟨e, hembed, hextract⟩ := stegoRoundTrip s hd (hfits rfl)
    rw [exec_embed hd (hfits rfl)] at hembed
    cases hembed
    obtain ⟨u, hu, hmessage, -⟩ := hextract (commandEffect (.rpipe false) t') (hback false) hwidth hheight hparams
    rw [exec_extract (commandEffect_validDims hd')] at hu
    cases hu
    rw [commandEffect_rpipe_true]
    exact hmessage hpos hvalid

/-- Settles O48: the stages as commands in turn; a message that does not fit stops EMBED and WPIPE with S = 1,
but neither ENC and FLIP nor WPIPE with S = 0. -/
theorem pipelinesEqualSingleStages : Obligations.PipelinesEqualSingleStages := by
  refine fun s hd => ⟨?write, fun hfits => ?writeHiding, fun hfits => ?writeFailing, ?read, ?readShowing⟩
  case write =>
    exact ⟨_, _, _, exec_wpipe hd (by simp), exec_cipherCommand false hd, exec_flip (commandEffect_validDims hd),
      commandEffect_flip_of_cipherCommand false s⟩
  case writeHiding =>
    have hd' : (commandEffect .embed s).validDims := commandEffect_validDims hd
    exact ⟨_, _, _, _, exec_wpipe hd fun _ => hfits, exec_embed hd hfits, exec_cipherCommand false hd',
      exec_flip (commandEffect_validDims hd'), fun a => (commandEffect_wpipe_sameImage (fun _ => hfits) a).trans
        (commandEffect_flip_of_cipherCommand false (commandEffect .embed s) a)⟩
  case writeFailing =>
    obtain ⟨e, herror⟩ : ∃ e, s.operandError true = some e := Option.ne_none_iff_exists'.1 fun hnone =>
      hfits (((s.operandError_eq_none_iff true).1 hnone).2 rfl)
    have hd' : (s.raise e).validDims := hd
    exact ⟨_, _, _, _, _, exec_of_error (.wpipe true) herror, fun _ => rfl, exec_of_error .embed herror, fun _ => rfl,
      exec_cipherCommand false hd', exec_flip (commandEffect_validDims hd'), exec_wpipe hd (by simp),
      fun a => (commandEffect_flip_of_cipherCommand false (s.raise e) a).symm⟩
  case read =>
    exact ⟨_, _, _, exec_rpipe false hd, exec_flip hd, exec_cipherCommand true (commandEffect_validDims hd),
      commandEffect_cipherCommand_of_flip true s⟩
  case readShowing =>
    have hd' : (commandEffect (cipherCommand true) (commandEffect .flip s)).validDims :=
      commandEffect_validDims (commandEffect_validDims hd)
    obtain ⟨hstatus, himage, htext⟩ := sameResult_rpipe_true s
    obtain ⟨houtlen, hout⟩ := htext rfl (errField_statusDone _ _)
    exact ⟨_, _, _, _, exec_rpipe true hd, exec_flip hd, exec_cipherCommand true (commandEffect_validDims hd),
      exec_extract hd', himage, houtlen, congrArg xresField hstatus, hout⟩

end Sys2Proof.Machine
end

section
/-! PROOFS. The errors (R92 to R98): every due word reports the first error that applies, or its command has its effect, and
an error changes STATUS only. -/

namespace Sys2Proof.Machine

variable {s t : State} {w : Word}

/-! ### The first error of a due word -/

/-- The first error that applies to a command word in R95's order: ILLEGAL_CMD, then the errors of the operands. -/
def State.firstError (s : State) (w : Word) : Option ErrCode :=
  match decode w with
  | .ok i => s.operandError (runsEmbed i)
  | .error _ => some .illegalCmd

theorem State.firstError_of_not_legal (h : legalWord w = false) : s.firstError w = some .illegalCmd := by
  obtain ⟨e, he⟩ := decode_error_of_not_legal h
  rw [State.firstError, he]

@[simp] theorem State.firstError_encode (i : Instr) : s.firstError (encode i) = s.operandError (runsEmbed i) := by
  rw [State.firstError, decode_encode]

/-- A due word raises its first error, or it has none and its command has its effect. -/
theorem step_of_completes_cases (hdue : s.completes w) :
    (∃ e, s.firstError w = some e ∧ step s = .next (s.raise e)) ∨
      ∃ i, s.firstError w = none ∧ step s = .next (commandEffect i s) := by
  cases hdecode : decode w with
  | error e => exact .inl ⟨.illegalCmd, by rw [State.firstError, hdecode], step_of_completes_error hdue hdecode⟩
  | ok i =>
    obtain rfl := decode_eq_ok_iff.1 hdecode
    rw [State.firstError_encode, step_of_completes_ok hdue hdecode]
    cases herror : s.operandError (runsEmbed i) with
    | some e => exact .inl ⟨e, rfl, exec_of_error i herror⟩
    | none =>
      obtain ⟨hd, hfits⟩ := (s.operandError_eq_none_iff _).1 herror
      exact .inr ⟨i, rfl, exec_of_valid i hd hfits⟩

/-! ### The code of the first error -/

/-- The words of the commands that run embed: EMBED, and WPIPE with S = 1 (R93). -/
theorem runsEmbed_iff_encode (i : Instr) : runsEmbed i = true ↔ encode i = 0x004 ∨ encode i = 0x106 := by
  cases i with
  | wpipe stego => cases stego <;> decide
  | rpipe stego => cases stego <;> decide
  | _ => decide

/-- The code of the operands' first error, 0 for none, as R93's causes in R95's order. -/
theorem State.operandError_code (s : State) (b : Bool) :
    ((s.operandError b).elim 0 errNumber).toNat =
      if s.w = 0 ∨ s.h = 0 ∨ s.params.maxpix < s.w * s.h then 2
      else if b = true ∧ s.params.msgmax < s.msglen.toNat then 3
      else if b = true ∧ s.w * s.h < 32 + 8 * s.msglen.toNat then 4
      else 0 := by
  have hdim : s.badDim = true ↔ s.w = 0 ∨ s.h = 0 ∨ s.params.maxpix < s.w * s.h := by
    simp only [State.badDim, Bool.or_eq_true, decide_eq_true_eq, or_assoc]
    rfl
  have hlen : (b && s.badLen) = true ↔ b = true ∧ s.params.msgmax < s.msglen.toNat := by
    rw [Bool.and_eq_true, State.badLen, decide_eq_true_eq]
    rfl
  have hcap : (b && s.overCapacity) = true ↔ b = true ∧ s.w * s.h < 32 + 8 * s.msglen.toNat := by
    rw [Bool.and_eq_true, State.overCapacity, decide_eq_true_eq]
    rfl
  simp only [State.operandError, ← hdim, ← hlen, ← hcap]
  split_ifs <;> rfl

/-- ERR after the completion of a due word is the code of its first error, 0 for none. -/
theorem step_errField_of_completes (hdue : s.completes w) :
    ∃ t, step s = .next t ∧ errField t.status = (s.firstError w).elim 0 errNumber := by
  rcases step_of_completes_cases hdue with ⟨e, herror, hstep⟩ | ⟨i, herror, hstep⟩ <;> rw [herror]
  · exact ⟨_, hstep, errField_statusDone e .none⟩
  · obtain ⟨x, hstatus⟩ := commandEffect_status i s
    exact ⟨_, hstep, by rw [hstatus, errField_statusDone]; rfl⟩

/-! ### STATUS after a completion -/

/-- STATUS of an error: DONE = 1, ERR in bits 7:4, and every other field 0 (R96). -/
theorem statusDone_none_toNat (e : ErrCode) : (statusDone e .none).toNat = 2 + 16 * (errNumber e).toNat := by
  cases e <;> decide

/-- The eight values of STATUS that a completion writes (R13). -/
def completionStatus : List Word := [0x002, 0x102, 0x202, 0x302, 0x012, 0x022, 0x032, 0x042]

/-- They are the legal values of STATUS with DONE = 1: the two others are those of reset and of BUSY = 1. -/
theorem mem_completionStatus {st : Word} (hlegal : st ∈ legalStatus) (hdone : doneBit st = true) :
    st ∈ completionStatus := by
  have hreset : st ≠ 0x000 := by
    rintro rfl
    cases hdone
  have hbusy : st ≠ 0x001 := by
    rintro rfl
    cases hdone
  exact List.mem_of_ne_of_mem hbusy (List.mem_of_ne_of_mem hreset hlegal)

theorem statusDone_mem_completionStatus {e : ErrCode} {x : ExtractResult} (h : e = .ok ∨ x = .none) :
    statusDone e x ∈ completionStatus :=
  mem_completionStatus (statusDone_mem_legalStatus h) (doneBit_statusDone e x)

/-- A due word ends the engine's work with an error or an extract outcome in STATUS, never both (R92). -/
theorem step_status_of_completes (hdue : s.completes w) :
    ∃ t e x, step s = .next t ∧ t.engine = none ∧ t.status = statusDone e x ∧ (e = .ok ∨ x = .none) := by
  rcases step_of_completes_cases hdue with ⟨e, -, hstep⟩ | ⟨i, -, hstep⟩
  · exact ⟨_, e, .none, hstep, rfl, rfl, .inr rfl⟩
  · obtain ⟨-, -, hengine, -⟩ := commandEffect_frame i s
    obtain ⟨x, hstatus⟩ := commandEffect_status i s
    exact ⟨_, .ok, x, hstep, hengine, hstatus, .inl rfl⟩

/-! ### The obligations -/

/-- Settles O22: an illegal word has no operands to check, and a legal one is the encoding of its command. -/
theorem firstErrorIsReported : Obligations.FirstErrorIsReported := by
  intro s w hdue
  obtain ⟨t, hstep, herr⟩ := step_errField_of_completes hdue
  refine ⟨t, hstep, ?_⟩
  rw [herr]
  cases hlegal : legalWord w with
  | false => rw [State.firstError_of_not_legal hlegal, if_pos rfl]; rfl
  | true =>
    obtain ⟨i, rfl⟩ := exists_eq_encode_of_legal hlegal
    simp only [State.firstError_encode, State.operandError_code, runsEmbed_iff_encode, Bool.true_eq_false, if_false]

/-- Settles O23: a completion that is no raised error is a command's effect, whose ERR is OK. -/
theorem errorsChangeStatusOnly : Obligations.ErrorsChangeStatusOnly := by
  intro s t w hdue hstep herr
  rcases step_of_completes_cases hdue with ⟨e, -, hraise⟩ | ⟨i, -, heffect⟩
  · obtain rfl : s.raise e = t := by simpa [hraise] using hstep
    rw [State.raise_status, errField_statusDone]
    exact ⟨statusDone_none_toNat e, raise_onlyStatus s e, busyBit_statusDone e .none⟩
  · obtain rfl : commandEffect i s = t := by simpa [heffect] using hstep
    obtain ⟨x, hstatus⟩ := commandEffect_status i s
    rw [hstatus, errField_statusDone] at herr
    exact absurd rfl herr

/-- Settles O27: BUSY and DONE are those of every completion, and the list is R13's with DONE = 1. -/
theorem everyCompletionSetsDone : Obligations.EveryCompletionSetsDone := by
  intro s w hdue
  obtain ⟨t, e, x, hstep, hengine, hstatus, hfields⟩ := step_status_of_completes hdue
  refine ⟨t, hstep, hengine, ?_⟩
  rw [hstatus]
  exact ⟨busyBit_statusDone e x, doneBit_statusDone e x, statusDone_mem_completionStatus hfields⟩

/-- Settles O6: whoever's turn it is has a next state, and so has every command. -/
theorem everyStepAnswersANextState : Obligations.EveryStepAnswersANextState := by
  refine ⟨fun s => ?_, fun i s => ⟨_, exec_eq i s⟩⟩
  cases hturn : s.turn with
  | reset rest => exact ⟨_, step_of_reset ((s.turn_eq_reset_iff rest).1 hturn)⟩
  | complete w =>
    obtain ⟨t, -, -, hstep, -⟩ := step_status_of_completes ((s.turn_eq_complete_iff w).1 hturn)
    exact ⟨t, hstep⟩
  | access e rest => exact ⟨_, step_of_hostMoves ((s.turn_eq_access_iff e rest).1 hturn)⟩
  | idle =>
    obtain ⟨hport, hengine⟩ := s.turn_eq_idle_iff.1 hturn
    exact ⟨s, step_of_idle hport hengine⟩

/-- Settles O24: the dimensions are checked first, whatever the command. -/
theorem badDimensionsStopEveryCommand : Obligations.BadDimensionsStopEveryCommand :=
  fun i _ hd => exec_of_not_validDims i hd

/-- Settles O25: EMBED and WPIPE with S = 1 run embed. -/
theorem tooLongMessageStopsEmbedding : Obligations.TooLongMessageStopsEmbedding :=
  fun _ hd hlen => ⟨exec_of_badLen rfl hd hlen, exec_of_badLen rfl hd hlen⟩

end Sys2Proof.Machine
end

section
/-! PROOFS. Reset and the busy interval (R44, R105, R113): a held command becomes due with the block unchanged, and only a
reset abandons it. -/

namespace Sys2Proof.Machine

variable {s t u : State} {w : Word}

/-! ### The block as it was -/

theorem SameBlock.refl (s : State) : SameBlock s s :=
  ⟨rfl, rfl, SameInputs.refl s, fun _ => rfl, SameText.refl s, rfl⟩

theorem SameInputs.trans (h : SameInputs s t) (h' : SameInputs t u) : SameInputs s u := by
  obtain ⟨hkey, hwidth, hheight, hmsglen, hmsg⟩ := h
  obtain ⟨hkey', hwidth', hheight', hmsglen', hmsg'⟩ := h'
  exact ⟨hkey'.trans hkey, hwidth'.trans hwidth, hheight'.trans hheight, hmsglen'.trans hmsglen,
    fun j => (hmsg' j).trans (hmsg j)⟩

theorem SameText.trans (h : SameText s t) (h' : SameText t u) : SameText s u := by
  obtain ⟨hlen, hout⟩ := h
  obtain ⟨hlen', hout'⟩ := h'
  exact ⟨hlen'.trans hlen, fun j => (hout' j).trans (hout j)⟩

theorem SameBlock.trans (h : SameBlock s t) (h' : SameBlock t u) : SameBlock s u := by
  obtain ⟨hstatus, hengine, hinputs, himage, htext, hparams⟩ := h
  obtain ⟨hstatus', hengine', hinputs', himage', htext', hparams'⟩ := h'
  exact ⟨hstatus'.trans hstatus, hengine'.trans hengine, hinputs.trans hinputs',
    fun a => (himage' a).trans (himage a), htext.trans htext', hparams'.trans hparams⟩

/-! ### The busy interval -/

/-- A run of one step more begins with that step. -/
theorem run_succ_of_step {M : Host.Core} {s t : M.State} (k : Nat) (h : M.step s = .next t) :
    M.run (k + 1) s = M.run k t := by
  simp only [Host.Core.run, h]

/-- An access puts no event into the port: at most the poll itself stays there (R57). -/
theorem State.mem_of_mem_afterEvent {d e : HostEvent} {rest : List HostEvent} (h : d ∈ s.afterEvent e rest) :
    d ∈ e :: rest := by
  unfold State.afterEvent at h
  split at h
  · exact h
  · exact List.mem_cons_of_mem e h

/-- With no reset in front, a held command whose busy interval has no access left is due (R113). -/
theorem State.completes_of_interval_over (hengine : s.engine = some w) (hreset : HostEvent.reset ∉ s.port)
    (hover : s.busyLeft = 0 ∨ s.port = []) : s.completes w :=
  ⟨hengine, hover, fun hhead => hreset (List.mem_of_mem_head? hhead)⟩

/-- One access of the busy interval: the block stays, the interval has one access less, and no reset comes into the
port (R40, R44). -/
theorem step_in_busyInterval {e : HostEvent} {rest : List HostEvent} (hb : s.busy = true) (hport : s.port = e :: rest)
    (hreset : HostEvent.reset ∉ s.port) (hleft : s.busyLeft ≠ 0) :
    ∃ t, step s = .next t ∧ SameBlock s t ∧ t.busyLeft = s.busyLeft - 1 ∧ HostEvent.reset ∉ t.port := by
  rw [hport] at hreset
  have hmove : s.hostMoves e rest := ⟨hport, fun he => hreset (he ▸ List.mem_cons_self), .inr hleft⟩
  obtain ⟨d, haccess⟩ := s.access_of_busy hb e rest
  refine ⟨_, step_of_hostMoves hmove, ?_⟩
  rw [haccess]
  exact ⟨s.withHostSide_sameBlock _ _ _ _, rfl, fun h => hreset (State.mem_of_mem_afterEvent h)⟩

/-- A held command is due after at most n steps when its busy interval has n accesses left (R113). -/
theorem run_until_due (n : Nat) (hleft : s.busyLeft = n) (hengine : s.engine = some w) (hb : s.busy = true)
    (hreset : HostEvent.reset ∉ s.port) :
    ∃ (k : Nat) (t : State), k ≤ n ∧ Sys2Proof.core.run k s = .next t ∧ t.completes w ∧ SameBlock s t := by
  induction n generalizing s with
  | zero => exact ⟨0, s, le_rfl, rfl, State.completes_of_interval_over hengine hreset (.inl hleft), SameBlock.refl s⟩
  | succ n ih =>
    cases hport : s.port with
    | nil =>
      exact ⟨0, s, n.succ.zero_le, rfl, State.completes_of_interval_over hengine hreset (.inr hport), SameBlock.refl s⟩
    | cons e rest =>
      obtain ⟨u, hstep, hsame, hleft', hreset'⟩ := step_in_busyInterval hb hport hreset (by omega)
      have ⟨hstatus, hengine', _⟩ := hsame
      obtain ⟨k, t, hk, hrun, hdue, hsame'⟩ := ih (s := u) (by omega) (hengine'.trans hengine)
        ((congrArg busyBit hstatus).trans hb) hreset'
      exact ⟨k + 1, t, Nat.succ_le_succ hk, (run_succ_of_step k hstep).trans hrun, hdue, hsame.trans hsame'⟩

/-! ### The obligations -/

/-- Settles O10, by induction on the accesses that the busy interval has left. -/
theorem acceptedCommandCompletes : Obligations.AcceptedCommandCompletes :=
  fun s _ hengine hb hreset => run_until_due s.busyLeft rfl hengine hb hreset

/-- Settles O21: of the steps that change the held command, the accept event needs BUSY = 0, which the invariant rules
out, and the completion is that of the held word. -/
theorem resetAbandonsTheCommand : Obligations.ResetAbandonsTheCommand := by
  refine ⟨fun s t w hinv hengine hnoReset hstep => ?kept, fun s w rest hport _ => ?abandoned⟩
  case kept =>
    rcases statusChangesOnlyByItsEvents s t hstep with ⟨rest, hport, -⟩ | ⟨v, hdue, -⟩ | ⟨v, rest, -, hidle, -⟩ |
      ⟨-, hsame⟩
    · exact absurd hport (hnoReset rest)
    · have ⟨hheld, _⟩ := hdue
      obtain rfl : w = v := Option.some.inj (hengine.symm.trans hheld)
      exact .inr hdue
    · have hb := hinv.busy
      rw [hidle, hengine] at hb
      cases hb
    · exact .inl (hsame.trans hengine)
  case abandoned =>
    refine ⟨s.takeReset rest, step_of_reset hport, rfl, rfl, fun v hdue => ?_, s.takeReset_imgByte rest,
      s.takeReset_msgByte rest, s.takeReset_outByte rest⟩
    obtain ⟨hheld, -⟩ := hdue
    cases hheld

end Sys2Proof.Machine
end

section
/-! PROOFS. Free memory contents (R109): a command whose operands have all been written reads no free byte, so its result
is the same whatever was drawn. -/

namespace Sys2Proof.Machine

variable {s s' : State} {i : Instr} {n : Nat} {f g : Image}

/-! ### Images that agree on their samples -/

/-- Two images have the same samples in their first n pixels. -/
def SameSamples (n : Nat) (f g : Image) : Prop := ∀ a, a < 3 * n → g a = f a

theorem SameSamples.encImg (h : SameSamples n f g) (k : Byte) : SameSamples n (encImg k f) (encImg k g) :=
  fun a ha => congrArg (madd8 · k false) (h a ha)

theorem SameSamples.decImg (h : SameSamples n f g) (k : Byte) : SameSamples n (decImg k f) (decImg k g) :=
  fun a ha => congrArg (madd8 · k true) (h a ha)

/-- The reflection of an image of n pixels reads no sample beyond them (R67). -/
theorem SameSamples.flipImg (h : SameSamples n f g) : SameSamples n (flipImg n f) (flipImg n g) := fun a ha => by
  have hinside : 3 * flipPixel n (pixelOf a) + channelOf a < 3 * n := by
    unfold flipPixel pixelOf channelOf
    omega
  exact h _ hinside

/-- The bitstream of len message bytes reads no byte beyond them (R72). -/
theorem streamBit_congr {len b : Nat} {m m' : Nat → Byte} (hm : ∀ j, j < len → m' j = m j) (hb : b < 32 + 8 * len) :
    streamBit (8 * len) m' b = streamBit (8 * len) m b := by
  by_cases hheader : b < 32
  · rw [streamBit_header hheader, streamBit_header hheader]
  · rw [streamBit, streamBit, hm _ (by omega)]

/-- The embedded image has a sample from the same sample and the message (R74, R76). -/
theorem SameSamples.embedImg (h : SameSamples n f g) {len : Nat} {m m' : Nat → Byte}
    (hm : ∀ j, j < len → m' j = m j) : SameSamples n (embedImg (8 * len) m f) (embedImg (8 * len) m' g) := fun a ha => by
  by_cases hslot : channelOf a = 0 ∧ pixelOf a < 32 + 8 * len
  · have ⟨_, hbit⟩ := hslot
    rw [Machine.embedImg, Machine.embedImg, if_pos hslot, if_pos hslot, h a ha, streamBit_congr hm hbit]
  · rw [Machine.embedImg, Machine.embedImg, if_neg hslot, if_neg hslot, h a ha]

/-! ### The same state with other draws -/

/-- The state with other draws: unwritten bytes may read otherwise, and all else is the same (log entries 5 and 6). -/
def State.redraw (s : State) (resets outDraws draws : Nat) : State :=
  { s with resets := resets, outDraws := outDraws, draws := draws }

variable {r o d : Nat}

/-- A byte that has been written is no free value. -/
theorem State.redraw_imgByte {a : Nat} (h : (s.img.get? a).isSome = true) : (s.redraw r o d).imgByte a = s.imgByte a := by
  obtain ⟨v, hv⟩ := Option.isSome_iff_exists.1 h
  simp only [State.imgByte, State.redraw, hv, Option.getD_some]

theorem State.redraw_msgByte {j : Nat} (h : (s.msg.get? j).isSome = true) : (s.redraw r o d).msgByte j = s.msgByte j := by
  obtain ⟨v, hv⟩ := Option.isSome_iff_exists.1 h
  simp only [State.msgByte, State.redraw, hv, Option.getD_some]

theorem State.imageWritten.sameSamples (h : s.imageWritten) :
    SameSamples s.pixels s.imgByte (s.redraw r o d).imgByte :=
  fun a ha => State.redraw_imgByte (h a ha)

/-- The image after the embed stage has the same samples. -/
theorem State.imageWritten.embedImg (h : s.imageWritten) (hmsg : s.messageWritten) :
    SameSamples s.pixels (embedImg s.payloadBits s.msgByte s.imgByte)
      (embedImg s.payloadBits (s.redraw r o d).msgByte (s.redraw r o d).imgByte) :=
  SameSamples.embedImg (len := s.mlen) h.sameSamples fun j hj => State.redraw_msgByte (hmsg j hj)

theorem State.imageWritten.writeStages (h : s.imageWritten) {stego : Bool} (hmsg : stego = true → s.messageWritten) :
    SameSamples s.pixels (writeStages s stego) (writeStages (s.redraw r o d) stego) := by
  cases stego with
  | false => exact (h.sameSamples.encImg s.key).flipImg
  | true => exact ((h.embedImg (hmsg rfl)).encImg s.key).flipImg

theorem State.imageWritten.readStages (h : s.imageWritten) :
    SameSamples s.pixels (readStages s) (readStages (s.redraw r o d)) :=
  h.sameSamples.flipImg.decImg s.key

/-! ### What is reported -/

/-- Two completions of the command i on n pixels report the same: STATUS, OUTLEN, the samples and, if it ran extract, the
recovered text. -/
def SameReport (n : Nat) (i : Instr) (t t' : State) : Prop :=
  t'.status = t.status ∧ t'.outlen = t.outlen ∧ SameSamples n t.imgByte t'.imgByte ∧
    (runsExtract i = true → errField t.status = 0 → ∀ j, j < t.outlen.toNat → t'.outByte j = t.outByte j)

/-- A completion after which OUT holds no recovered text of this command: it ran no extract, or it reports an error. -/
theorem sameReport_complete {e : ErrCode} {x : ExtractResult} (hnoText : runsExtract i = false ∨ errNumber e ≠ 0)
    (hlen : s'.outlen = s.outlen) (h : SameSamples n s.imgByte s'.imgByte) :
    SameReport n i (s.complete e x) (s'.complete e x) := by
  refine ⟨rfl, hlen, h, fun hruns hok => ?_⟩
  rw [State.complete_status, errField_statusDone] at hok
  rcases hnoText with hnone | herr
  · rw [hnone] at hruns
    cases hruns
  · exact absurd hok herr

/-- Below OUTLEN an extract leaves the recovered text in OUT (R81). -/
theorem State.finishExtract_text_getElem? (s : State) (n : Nat) (image : Image) {j : Nat}
    (hj : j < (s.finishExtract n image).outlen.toNat) :
    (extractImg n image).2[j]? = some ((s.finishExtract n image).outByte j) := by
  rw [State.finishExtract_outlen, BitVec.toNat_ofNat] at hj
  have hj : j < (extractImg n image).2.length := Nat.lt_of_lt_of_le hj (Nat.mod_le _ _)
  rw [State.finishExtract_outByte, List.getElem?_eq_getElem hj, Option.getD_some]

/-- Two completions with an extract of images with the same samples. -/
theorem sameReport_finishExtract (h : SameSamples n s.imgByte s'.imgByte) (himage : SameSamples n f g) :
    SameReport n i (s.finishExtract n f) (s'.finishExtract n g) := by
  rw [State.finishExtract_congr s' himage]
  refine ⟨rfl, rfl, h, fun _ _ j hj => ?_⟩
  have htext := s.finishExtract_text_getElem? n f hj
  rw [s'.finishExtract_text_getElem? n f hj] at htext
  exact Option.some.inj htext

theorem sameSamples_storeImage (s s' : State) (h : SameSamples n f g) :
    SameSamples n (s.storeImage (3 * n) f).imgByte (s'.storeImage (3 * n) g).imgByte := fun a ha => by
  rw [State.storeImage_imgByte, State.storeImage_imgByte, if_pos ha, if_pos ha, h a ha]

/-- The effect of a command that has its operands written is the same with other draws. -/
theorem commandEffect_redraw (himage : s.imageWritten) (hmsg : runsEmbed i = true → s.messageWritten) :
    SameReport s.pixels i (commandEffect i s) (commandEffect i (s.redraw r o d)) := by
  cases i with
  | enc => exact sameReport_complete (.inl rfl) rfl (sameSamples_storeImage _ _ (himage.sameSamples.encImg s.key))
  | dec => exact sameReport_complete (.inl rfl) rfl (sameSamples_storeImage _ _ (himage.sameSamples.decImg s.key))
  | flip => exact sameReport_complete (.inl rfl) rfl (sameSamples_storeImage _ _ himage.sameSamples.flipImg)
  | embed =>
    have hsamples : SameSamples s.pixels (commandEffect .embed s).imgByte
        (commandEffect .embed (s.redraw r o d)).imgByte := by
      rw [commandEffect_embed_imgByte, commandEffect_embed_imgByte]
      exact himage.embedImg (hmsg rfl)
    exact sameReport_complete (.inl rfl) rfl hsamples
  | extract => exact sameReport_finishExtract himage.sameSamples himage.sameSamples
  | wpipe stego => exact sameReport_complete (.inl rfl) rfl (sameSamples_storeImage _ _ (himage.writeStages hmsg))
  | rpipe stego =>
    cases stego with
    | false => exact sameReport_complete (.inl rfl) rfl (sameSamples_storeImage _ _ himage.readStages)
    | true => exact sameReport_finishExtract (sameSamples_storeImage _ _ himage.readStages) himage.readStages

/-! ### The obligations -/

/-- Settles O55: the draws enter no check and no written byte, so an error and an effect alike are the same. -/
theorem writtenOperandsFixTheResult : Obligations.WrittenOperandsFixTheResult := by
  intro i s r o d himage hmsg
  have herror : (s.redraw r o d).operandError (runsEmbed i) = s.operandError (runsEmbed i) := rfl
  refine ⟨_, _, exec_eq i s, exec_eq i (s.redraw r o d), ?_⟩
  rw [herror]
  cases hfirst : s.operandError (runsEmbed i) with
  | some e => exact sameReport_complete (.inr (State.operandError_ne_ok hfirst)) rfl himage.sameSamples
  | none => exact commandEffect_redraw himage hmsg

end Sys2Proof.Machine
end
